-- ==== Sys2Proof/Word.lean ====
section
/-! DEFINITION. The machine's word types: the byte of a register (00_scope.md R6), the 7-bit slave
address (R9) and the port number (R7). -/

namespace Sys2Proof

/-- Every register and every transferred datum is one byte (R6, R71). -/
abbrev Byte := BitVec 8

/-- A 7-bit I2C slave address (R9, R70). -/
abbrev SlaveAddr := BitVec 7

/-- One of exactly eight ports, numbered 0 to 7 (R7). -/
abbrev Port := Fin 8

/-- A single bit as the byte 0x00 or 0x01 (`zext_8`, R15). -/
def bitByte (v : Bool) : Byte := if v then 1#8 else 0#8

end Sys2Proof
end

