-- ==== Sys2Proof/Config.lean ====
section
/-! DEFINITION. The names the specification fixes (registers, levels, polarities, directions, handles,
accesses), the implementation parameters of 00_scope.md section 3, and the free values: constants
without a body, for what the specification leaves open. -/

namespace Sys2Proof

/-- The three writable registers (R20 "CSR", R35 to R37). -/
inductive Csr where
  | output
  | polarity
  | configuration
  deriving DecidableEq, Repr

/-- The four registers of the register file (R8, R31): Input, which is read-only, and the three CSRs. -/
inductive Reg where
  | input
  | csr (c : Csr)
  deriving DecidableEq, Repr

/-- Logic level of a port (R20, R34). -/
inductive Level where
  | low
  | high
  deriving DecidableEq, Repr

/-- Inversion setting of a port (R20, R36). -/
inductive Polarity where
  | original
  | inverted
  deriving DecidableEq, Repr

/-- Direction of a port (R20, R37). -/
inductive Direction where
  | output
  | input
  deriving DecidableEq, Repr

/-- A bus reference (R45). -/
inductive BusRef where
  | closed
  | opened (fd : Int)
  deriving DecidableEq, Repr

/-- A device handle (R44). A null handle is `none` of `Option Handle`. -/
structure Handle where
  bus : BusRef
  addr : SlaveAddr
  deriving DecidableEq, Repr

/-- The accesses the target defines (R85's list): RD of any register, WR of a CSR. -/
inductive Access where
  | read (r : Reg)
  | write (c : Csr) (v : Byte)
  deriving DecidableEq, Repr

/-- How a read of Input obtains its byte (R13 INPUT_MODEL, R144, D5). -/
inductive InputModel where
  | free
  | pinXorPolarity
  deriving DecidableEq, Repr

/-- The draws of one transaction (R18). Each is used at most once in a transaction:
`fail` is draw_fail(), `applied` is draw_applied(), `cmd` is draw_cmd(), `input` is draw_input(),
bit `n` of `pins` is draw_pin(n). -/
structure Draw where
  fail : Bool
  applied : Bool
  cmd : Byte
  input : Byte
  pins : Byte
  deriving DecidableEq, Repr, Inhabited

/-- REG_INDEX: the command byte that selects each register, a configuration field (R11, D2, U10). -/
structure RegIndex where
  input : Byte
  output : Byte
  polarity : Byte
  configuration : Byte
  deriving DecidableEq, Repr

/-- BUS_OPEN: which bus references count as open, a parameter (R13, D9, U11). `descriptor` is R45's
predicate; `custom k` is the `k`-th predicate of some other bus type. -/
inductive OpenRule where
  | descriptor
  | custom (k : Nat)
  deriving DecidableEq, Repr

/-- DEFAULT: the reset value of each writable register (R12, R40). -/
def Config.default : Csr → Byte
  | .output => 0xFF#8
  | .polarity => 0x00#8
  | .configuration => 0xFF#8

/-- ADDR_MIN (R10). -/
def Config.addrMin : SlaveAddr := 0x38#7

/-- ADDR_MAX (R10). -/
def Config.addrMax : SlaveAddr := 0x3F#7

/-- BUS_OPEN of the `k`-th other bus type (D9, U11). DESIGN CHOICE, log 13: free value; safe. -/
opaque Config.customOpen : Nat → BusRef → Bool

/-- Low three bits of TARGET_ADDR at reset (R13, D24). DESIGN CHOICE, log 2: free value; safe. -/
opaque Config.targetSelect : BitVec 3

/-- Low three bits of FIXED_ADDR at reset (R13, D20). DESIGN CHOICE, log 21: free value; safe. -/
opaque Config.fixedSelect : BitVec 3

/-- CMD_RESET: the command pointer at power-on (R13, R41, D6). DESIGN CHOICE, log 7: free value; safe. -/
opaque Config.cmdReset : Byte

/-- The draws of the `n`-th transaction whose draws the state does not settle (R18).
DESIGN CHOICE, log 5: free value; safe. -/
opaque Config.freeDraw : Nat → Draw

/-- What the other agents do at the `n`-th boundary whose turn the state does not settle (R85).
DESIGN CHOICE, log 4: free value; safe. -/
opaque Config.freeTurn : Nat → List Access

/-- The address in [0x38, 0x3F] with low bits `sel` (R10, R100: `0111aaa`). -/
def Config.addrOf (sel : BitVec 3) : SlaveAddr := 0b0111#4 ++ sel

end Sys2Proof
end

