-- ==== Sys2Proof/Syntax.lean ====
section
/-! DEFINITION. The instructions: one constructor for each row of spec/opcode_table.json. The eight
primitive bus transactions carry the slave address of their frame (30_encoding.md R107). The eight
composite operations carry their raw operands, so that an invalid operand can be written down
(R105, R106, R110); their handle is implicit (R110) and stands in the state. -/

namespace Sys2Proof

/-- The instructions of the block.
Register codes are raw natural numbers (R106); ports, levels, polarities and directions are raw
integers (R105, R204, R205). -/
inductive Instr where
  /-- RD.IN (R144) -/
  | rdIn (a : SlaveAddr)
  /-- RD.OUT (R145) -/
  | rdOut (a : SlaveAddr)
  /-- RD.POL (R146) -/
  | rdPol (a : SlaveAddr)
  /-- RD.CFG (R147) -/
  | rdCfg (a : SlaveAddr)
  /-- WR.OUT (R148) -/
  | wrOut (a : SlaveAddr) (v : Byte)
  /-- WR.POL (R149) -/
  | wrPol (a : SlaveAddr) (v : Byte)
  /-- WR.CFG (R150) -/
  | wrCfg (a : SlaveAddr) (v : Byte)
  /-- WR.IN (R151) -/
  | wrIn (a : SlaveAddr) (v : Byte)
  /-- GET_REGISTER (R174) -/
  | getRegister (r : Nat)
  /-- SET_REGISTER (R175) -/
  | setRegister (r : Nat) (v : Byte)
  /-- RESET_REGISTER (R176) -/
  | resetRegister (r : Nat)
  /-- PORT_READ (R207) -/
  | portRead (p : Int)
  /-- PORT_WRITE (R208) -/
  | portWrite (p : Int) (l : Int)
  /-- PORT_POLARITY (R209) -/
  | portPolarity (p : Int) (q : Int)
  /-- PORT_DIRECTION (R210) -/
  | portDirection (p : Int) (d : Int)
  /-- RESET (R240) -/
  | reset
  deriving DecidableEq, Repr

end Sys2Proof
end

