-- ==== Sys2Proof/WellFormed.lean ====
section
/-! DEFINITION. Which instructions are well formed: the operands the opcode table's rows admit. An
ill-formed composite operation is still executed (it returns Err(InvalidArgument), 60_exceptions.md
R301), and an ill-formed primitive transaction still fails on the bus (30_encoding.md R108). -/

namespace Sys2Proof

/-- The slave address lies in [ADDR_MIN, ADDR_MAX], both inclusive (R10). -/
def addrInRange (a : SlaveAddr) : Bool :=
  decide (Config.addrMin.toNat ≤ a.toNat) && decide (a.toNat ≤ Config.addrMax.toNat)

/-- The register code names one of the four registers (R106). -/
def regCodeOk (r : Nat) : Bool := decide (r ≤ 3)

/-- The register code names a writable register: 1, 2 or 3 (R106, R179). -/
def csrCodeOk (r : Nat) : Bool := decide (1 ≤ r) && decide (r ≤ 3)

/-- The port is in 0..7 (R204). -/
def portOk (p : Int) : Bool := decide (0 ≤ p) && decide (p ≤ 7)

/-- The value operand is 0 or 1 (R205). -/
def valueOk (x : Int) : Bool := decide (x = 0) || decide (x = 1)

/-- Every operand is one the instruction's row admits. -/
def Instr.wellFormed : Instr → Bool
  | .rdIn a | .rdOut a | .rdPol a | .rdCfg a => addrInRange a
  | .wrOut a _ | .wrPol a _ | .wrCfg a _ | .wrIn a _ => addrInRange a
  | .getRegister r => regCodeOk r
  | .setRegister r _ => csrCodeOk r
  | .resetRegister r => csrCodeOk r
  | .portRead p => portOk p
  | .portWrite p l => portOk p && valueOk l
  | .portPolarity p q => portOk p && valueOk q
  | .portDirection p d => portOk p && valueOk d
  | .reset => true

/-- The composite operations, which are calls and have no binary form (R110, R111). -/
def Instr.isComposite : Instr → Bool
  | .rdIn _ | .rdOut _ | .rdPol _ | .rdCfg _ => false
  | .wrOut _ _ | .wrPol _ _ | .wrCfg _ _ | .wrIn _ _ => false
  | .getRegister _ | .setRegister _ _ | .resetRegister _ => true
  | .portRead _ | .portWrite _ _ | .portPolarity _ _ | .portDirection _ _ => true
  | .reset => true

end Sys2Proof
end

