-- ==== Sys2Proof/Decode.lean ====
section
/-! DEFINITION. The frames of 30_encoding.md: the decoder, total on any list of bytes and rejecting by
name, then the encoder, written from the same tables (R100 to R104, R107). Both take REG_INDEX as an
argument (00_scope.md R11). A frame is the list of its
bytes in the order they travel (R73). Its kind is given by whether a second address byte with the
read bit follows the command byte (R109): four bytes with it, the last sent by the target, is format
R; three bytes is format W. -/

namespace Sys2Proof

/-- Why a list of bytes is no frame of the opcode table (R108). -/
inductive FrameError where
  /-- no byte at all -/
  | empty
  /-- the first address byte has the read bit: no index byte precedes the read (R102, N6) -/
  | readFirst
  /-- the slave address lies outside [0x38, 0x3F] (R108, last row) -/
  | foreignAddress
  /-- an address byte and no command byte (R108) -/
  | noCommand
  /-- a write with no data byte, or a read with no read address byte -/
  | noData
  /-- the two address bytes of a read name different slaves (R102) -/
  | addressesDiffer
  /-- more data than format W or format R carries (R108, R152) -/
  | tooLong
  /-- command byte 0x04..0xFF (R103, R108, R152) -/
  | reservedCommand
  deriving DecidableEq, Repr

/-- The address byte: `(addr << 1) | rw` (R100, R104), with `rw` true for a read.
PRESUMED, log 16: the layout is general knowledge (G3); unsafe. -/
def addressByte (a : SlaveAddr) (rw : Bool) : Byte := (a.setWidth 8 <<< 1) ||| bitByte rw

/-- The slave address in bits 7:1 of an address byte (R100). -/
def slaveOf (b : Byte) : SlaveAddr := b.extractLsb' 1 7

/-- The direction bit, bit 0 of an address byte: set for a read (R100). -/
def isReadByte (b : Byte) : Bool := b.getLsbD 0

/-- The command byte of a register (R11, R104). -/
def indexOf (m : RegIndex) : Reg → Byte
  | .input => m.input
  | .csr .output => m.output
  | .csr .polarity => m.polarity
  | .csr .configuration => m.configuration

/-- The default REG_INDEX (R11).
PRESUMED, log 1: the specification takes the numbers from general knowledge (D2); unsafe. -/
def defaultIndex : RegIndex :=
  { input := 0x00#8, output := 0x01#8, polarity := 0x02#8, configuration := 0x03#8 }

/-- The registers in the order of their codes (R11, R106). -/
def allRegs : List Reg := [.input, .csr .output, .csr .polarity, .csr .configuration]

/-- The register a command byte selects; none for the reserved ones (R103). -/
def regOfIndex (m : RegIndex) (c : Byte) : Option Reg := allRegs.find? fun r => indexOf m r == c

/-- The instruction of a read of register `r` (R107, format R). -/
def readInstr (a : SlaveAddr) : Reg → Instr
  | .input => .rdIn a
  | .csr .output => .rdOut a
  | .csr .polarity => .rdPol a
  | .csr .configuration => .rdCfg a

/-- The instruction of a write of register `r` (R107, format W). -/
def writeInstr (a : SlaveAddr) (v : Byte) : Reg → Instr
  | .input => .wrIn a v
  | .csr .output => .wrOut a v
  | .csr .polarity => .wrPol a v
  | .csr .configuration => .wrCfg a v

/-- The command byte's instruction, or the name of its rejection (R103, R107). -/
def selectReg (m : RegIndex) (c : Byte) (mk : Reg → Instr) : Except FrameError Instr :=
  match regOfIndex m c with
  | some r => .ok (mk r)
  | none => .error .reservedCommand

/-- Format W: `0111aaa0 cccccccc dddddddd` (R101). -/
def decodeWrite (m : RegIndex) (a c d : Byte) : Except FrameError Instr :=
  if isReadByte a then .error .readFirst
  else if addrInRange (slaveOf a) = false then .error .foreignAddress
  else selectReg m c (writeInstr (slaveOf a) d)

/-- Format R: `0111aaa0 cccccccc 0111aaa1 dddddddd` (R102); the last byte is the target's answer and
selects nothing. A third byte without the read bit makes the frame a write of two data bytes (R109). -/
def decodeRead (m : RegIndex) (a c a' : Byte) : Except FrameError Instr :=
  if isReadByte a then .error .readFirst
  else if addrInRange (slaveOf a) = false then .error .foreignAddress
  else if isReadByte a' = false then .error .tooLong
  else if slaveOf a' ≠ slaveOf a then .error .addressesDiffer
  else selectReg m c (readInstr (slaveOf a))

/-- The decoder (R107 to R109). -/
def decode (m : RegIndex) : List Byte → Except FrameError Instr
  | [] => .error .empty
  | [_] => .error .noCommand
  | [_, _] => .error .noData
  | [a, c, d] => decodeWrite m a c d
  | [a, c, a', _] => decodeRead m a c a'
  | _ => .error .tooLong

/-- The bytes of a read of `r`; the last one is the target's, written here as 0x00 (R102, log 16). -/
def readFrame (m : RegIndex) (a : SlaveAddr) (r : Reg) : List Byte :=
  [addressByte a false, indexOf m r, addressByte a true, 0x00#8]

/-- The bytes of a write of `v` to `r` (R101). -/
def writeFrame (m : RegIndex) (a : SlaveAddr) (r : Reg) (v : Byte) : List Byte :=
  [addressByte a false, indexOf m r, v]

/-- The encoder. A composite operation is a call and has no binary form (R110). -/
def encode (m : RegIndex) : Instr → Option (List Byte)
  | .rdIn a => some (readFrame m a .input)
  | .rdOut a => some (readFrame m a (.csr .output))
  | .rdPol a => some (readFrame m a (.csr .polarity))
  | .rdCfg a => some (readFrame m a (.csr .configuration))
  | .wrOut a v => some (writeFrame m a (.csr .output) v)
  | .wrPol a v => some (writeFrame m a (.csr .polarity) v)
  | .wrCfg a v => some (writeFrame m a (.csr .configuration) v)
  | .wrIn a v => some (writeFrame m a .input v)
  | .getRegister _ => none
  | .setRegister _ _ => none
  | .resetRegister _ => none
  | .portRead _ => none
  | .portWrite _ _ => none
  | .portPolarity _ _ => none
  | .portDirection _ _ => none
  | .reset => none

/-- The bytes of an instruction whose `nbits` bits are `w`, numbered as spec/opcode_table.json numbers
them: the whole frame is one number and its FIRST byte is the most significant one (R101, R102). -/
def tableBytes (nbits w : Nat) : List Byte :=
  (List.range ((nbits + 7) / 8)).reverse.map fun k => BitVec.ofNat 8 (w >>> (8 * k))

/-- What the decoder reads from a word of the opcode table, whose command bytes are the default ones. -/
def decodeTableWord (nbits w : Nat) : Option Instr :=
  match decode defaultIndex (tableBytes nbits w) with
  | .ok i => some i
  | .error _ => none

end Sys2Proof
end

