-- ==== Sys2Proof/Machine/State.lean ====
section
/-! DEFINITION. The state of the block as plain data: the tuple (T, C, E) of 10_state.md R30, the
handle (R44), the parameters (00_scope.md R13), what the outside has handed in and what the block has
put on the bus and returned; the reasons a step can stop; and the state after reset (R48). -/

namespace Sys2Proof.Machine

/-- Target state T (R30): the three writable registers and the command pointer (R35, R36, R37, R41). -/
structure Target where
  out : Byte
  pol : Byte
  cfg : Byte
  cmd : Byte
  deriving DecidableEq, Repr

/-- The operation being executed, with its operands as the caller gave them (R43): the checks of the
operands are the operation's own first lines (R173, R204, R205). -/
inductive Op where
  | getRegister (r : Nat)
  | setRegister (r : Nat) (v : Byte)
  | resetRegister (r : Nat)
  | portRead (p : Int)
  | portWrite (p l : Int)
  | portPolarity (p q : Int)
  | portDirection (p d : Int)
  | reset
  deriving DecidableEq, Repr

/-- Controller state C (R43): `step` counts the transactions completed, `rd` is the byte last read. -/
inductive Ctrl where
  | idle
  | busy (op : Op) (step : Nat) (rd : Option Byte)
  deriving DecidableEq, Repr

/-- The value of an `Ok` result: a byte, a level or the unit (R17). -/
inductive Value where
  | byte (b : Byte)
  | level (l : Level)
  | unit
  deriving DecidableEq, Repr

/-- The two error kinds, distinguished by name only (R300, R303). -/
inductive ErrorKind where
  | invalidArgument
  | transportFailure
  deriving DecidableEq, Repr

/-- The result of an operation (R17). -/
inductive Result where
  | ok (v : Value)
  | err (e : ErrorKind)
  deriving DecidableEq, Repr

/-- The answer of one transaction: a read's byte, a write's Ok, or Fail (R140, R141). -/
inductive Answer where
  | data (d : Byte)
  | done
  | fail
  deriving DecidableEq, Repr

/-- What the machine last handed back: an operation's result or a primitive transaction's answer. -/
inductive Returned where
  | operation (r : Result)
  | transaction (a : Answer)
  deriving DecidableEq, Repr

/-- Who issued a transaction (R19): the controller within an operation, the program by a primitive
transaction of its own, or the environment. -/
inductive Agent where
  | controller
  | direct
  | environment
  deriving DecidableEq, Repr

/-- What a transaction asked for: an access of the target, or a frame that names none (only logged
when no target answers it, R143). -/
inductive Request where
  | access (a : Access)
  | bytes (frame : List Byte)
  deriving DecidableEq, Repr

/-- One transaction in the global order (R84). `landed` says whether a write's byte reached its
register (R141, R142). -/
structure Transaction where
  agent : Agent
  slave : SlaveAddr
  request : Request
  answer : Answer
  landed : Bool
  deriving DecidableEq, Repr

/-- An entry of the bus log: a transaction, or a power cycle of the target (R316). -/
inductive Event where
  | transaction (t : Transaction)
  | powerCycle
  deriving DecidableEq, Repr

/-- Environment state E (R30, R47): the external levels at the pins as last sampled; the draws (R18)
already settled, one record a transaction, and how many have been used; the turns of the other agents
(R85) already settled, and how many have been taken. -/
structure Env where
  pins : Byte
  draws : List Draw
  drawn : Nat
  turns : List (List Access)
  turned : Nat
  deriving DecidableEq, Repr

/-- The parameters of R11 and R13, fixed for the machine. -/
structure Board where
  targetAddr : SlaveAddr
  fixedAddr : SlaveAddr
  inputModel : InputModel
  exclusive : Bool
  regIndex : RegIndex
  busOpen : OpenRule
  deriving DecidableEq, Repr

/-- What the outside hands the machine: a call with its handle (R44, R110); a call of the
fixed-address variant (D20); a raw frame on the bus (R101, R102); a power cycle (R316). -/
inductive Input where
  | call (h : Option Handle) (i : Instr)
  | fixedCall (bus : BusRef) (i : Instr)
  | frame (bs : List Byte)
  | powerCycle
  deriving DecidableEq, Repr

/-- The whole machine. -/
structure State where
  target : Target
  ctrl : Ctrl
  env : Env
  handle : Option Handle
  returned : Option Returned
  inbox : List Input
  bus : List Event
  board : Board
  deriving DecidableEq, Repr

/-- Why the machine stops. -/
inductive Fault where
  /-- Raised by the step when the controller is in a `Busy(op, step, rd)` that no operation passes
  through (R43 gives no such state). Safe: no run reaches one (log 23). -/
  | controllerStuck
  deriving DecidableEq, Repr

/-- Why an instruction or a frame is given no meaning. -/
inductive Refusal where
  /-- Raised by the dispatch for an instruction not modelled yet. Safe. -/
  | notModelled (mnemonic : String)
  /-- Raised by WR.IN addressed to the target (R141, R151, D4). Safe (log 14). -/
  | writeToInput
  /-- Raised by a frame addressed to the target with a reserved command byte, or longer than its
  format (R152, D3). Safe (log 15). -/
  | reservedCommand
  /-- Raised by any other frame addressed to the target that is neither format W nor format R (R108).
  Safe (log 15). -/
  | malformedFrame (why : FrameError)
  deriving DecidableEq, Repr

/-- The target after power-on (R48, R400), with the command pointer at an unspecified value. -/
def Target.powerOn (cmd : Byte) : Target where
  out := Config.default .output
  pol := Config.default .polarity
  cfg := Config.default .configuration
  cmd := cmd

/-- The machine right after reset (R48, R400, R401): target at its power-on values, controller idle.
DESIGN CHOICE, log 2, 4, 5, 7, 17, 18, 19, 21: what the specification gives no reset value for. -/
def State.reset : State where
  target := Target.powerOn Config.cmdReset
  ctrl := .idle
  env := { pins := 0x00#8, draws := [], drawn := 0, turns := [], turned := 0 }
  handle := none
  returned := none
  inbox := []
  bus := []
  board :=
    { targetAddr := Config.addrOf Config.targetSelect
      fixedAddr := Config.addrOf Config.fixedSelect
      inputModel := .free
      exclusive := false
      regIndex := defaultIndex
      busOpen := .descriptor }

end Sys2Proof.Machine
end

