-- ==== Sys2Proof/Machine/Bits.lean ====
section
/-! DEFINITION. The single-bit masking functions of 42_port_ops.md section 1 and the bit values of the
level, polarity and direction operands (30_encoding.md R105). -/

namespace Sys2Proof.Machine

/-- Bit extraction, `(b >> n) & 1` (R200). -/
def bitGet (b : Byte) (n : Port) : Byte := (b >>> n.val) &&& 1#8

/-- Bit injection, `b XOR (((-v) XOR b) AND (1 << n))` (R201). -/
def withBitSet (b : Byte) (n : Port) (v : Bool) : Byte :=
  b ^^^ (((-(bitByte v)) ^^^ b) &&& (1#8 <<< n.val))

/-- The level an extracted bit stands for: 0 is low, 1 is high (R34, R207). -/
def levelOf (bit : Byte) : Level := if bit = 0#8 then .low else .high

/-- low = 0, high = 1 (R34, R105). -/
def levelBit : Level → Bool
  | .low => false
  | .high => true

/-- original = 0, inverted = 1 (R36, R105). -/
def polarityBit : Polarity → Bool
  | .original => false
  | .inverted => true

/-- output = 0, input = 1 (R37, R105). -/
def directionBit : Direction → Bool
  | .output => false
  | .input => true

end Sys2Proof.Machine
end

