-- ==== Sys2Proof/Machine/Operands.lean ====
section
/-! DEFINITION. The operand forms: handle validation (41_register_ops.md R170 to R172) and the parsing
of raw register, port, level, polarity and direction operands (30_encoding.md R105, R106; 42_port_ops.md
R204, R205). A parse that fails is an InvalidArgument. -/

namespace Sys2Proof.Machine

/-- BUS_OPEN (R13): for a descriptor bus, open with a non-negative descriptor (R45); for another bus
type, its own predicate (D9, log 13). -/
def busOpen : OpenRule → BusRef → Bool
  | .descriptor, .closed => false
  | .descriptor, .opened fd => decide (0 ≤ fd)
  | .custom k, b => Config.customOpen k b

/-- VALIDATE (R170); a null handle is invalid and no field of it is read (R171). -/
def validate (rule : OpenRule) : Option Handle → Bool
  | none => false
  | some h => busOpen rule h.bus && addrInRange h.addr

/-- The slave address of the machine's handle, if the handle passes VALIDATE. -/
def State.slave (s : State) : Option SlaveAddr :=
  if validate s.board.busOpen s.handle then s.handle.map Handle.addr else none

/-- The register a raw code names (R106, R173). -/
def regOfCode (r : Nat) : Option Reg :=
  if r = 0 then some .input
  else if r = 1 then some (.csr .output)
  else if r = 2 then some (.csr .polarity)
  else if r = 3 then some (.csr .configuration)
  else none

/-- The register a raw code names as the target of a write: IN is rejected (R179). -/
def csrOfCode (r : Nat) : Option Csr :=
  match regOfCode r with
  | some (.csr c) => some c
  | some .input => none
  | none => none

/-- PORT_OK and the port it accepts (R204). -/
def portOf (p : Int) : Option Port :=
  if 0 ≤ p then (if h : p.toNat < 8 then some ⟨p.toNat, h⟩ else none) else none

/-- A level operand (R105, R205). -/
def levelOfRaw (x : Int) : Option Level :=
  if x = 0 then some .low else if x = 1 then some .high else none

/-- A polarity operand (R105, R205). -/
def polarityOfRaw (x : Int) : Option Polarity :=
  if x = 0 then some .original else if x = 1 then some .inverted else none

/-- A direction operand (R105, R205). -/
def directionOfRaw (x : Int) : Option Direction :=
  if x = 0 then some .output else if x = 1 then some .input else none

end Sys2Proof.Machine
end

