-- ==== Sys2Proof/Machine/Flags.lean ====
section
/-! DEFINITION. The block has no condition codes or flags (10_state.md R42): the only status an
operation produces is its result variant (00_scope.md R17). This file gives it: how an operation ends,
and how a primitive transaction reports its answer. -/

namespace Sys2Proof.Machine

/-- An operation ends: it returns its result and the controller goes to Idle (R43, R300). -/
def State.complete (r : Result) (s : State) : State :=
  { s with ctrl := .idle, returned := some (.operation r) }

/-- A primitive transaction issued by itself hands back its answer (R140, R141). -/
def State.answered (a : Answer) (s : State) : State :=
  { s with returned := some (.transaction a) }

end Sys2Proof.Machine
end

