-- ==== Sys2Proof/Machine/Ops.lean ====
section
/-! DEFINITION. The named operations on the state: the register file, the draws, the two bus
transactions (40_transport.md R140, R141), the other agents' turns (20_memory.md R85), the errors
(60_exceptions.md) and a power cycle (R316). -/

namespace Sys2Proof.Machine

/-! ### The register file (R31, R35 to R37, R39) -/

/-- A writable register's byte (R16 `reg[r]`). -/
def Target.reg (t : Target) : Csr → Byte
  | .output => t.out
  | .polarity => t.pol
  | .configuration => t.cfg

/-- Write a register; every byte is legal and stored whole (R16 `reg[r] <- v`, R39). -/
def Target.write (t : Target) (c : Csr) (v : Byte) : Target :=
  match c with
  | .output => { t with out := v }
  | .polarity => { t with pol := v }
  | .configuration => { t with cfg := v }

/-- Latch the command pointer (R41). -/
def Target.point (t : Target) (cmd : Byte) : Target := { t with cmd := cmd }

/-- The level the chip drives on a port: `OUT[n]` when `CFG[n] = 0`, none when the port is an input
(R38). DEDUCED, log 27: the specification marks the relation as its inference. -/
def Target.drives (t : Target) (n : Port) : Option Level :=
  if t.cfg.getLsbD n.val then none
  else some (if t.out.getLsbD n.val then .high else .low)

/-! ### The draws (R18) -/

/-- The draws of the `k`-th coming transaction: settled in the state, or free (log 5). -/
def Env.drawAt (e : Env) (k : Nat) : Draw := e.draws.getD k (Config.freeDraw (e.drawn + k))

/-- One transaction's draws have been used; the pins are as it sampled them (R47). -/
def Env.afterDraw (e : Env) : Env :=
  { e with draws := e.draws.tail, drawn := e.drawn + 1, pins := (e.drawAt 0).pins }

/-- What the other agents do at the `k`-th coming boundary: settled in the state, or free (log 4). -/
def Env.turnAt (e : Env) (k : Nat) : List Access := e.turns.getD k (Config.freeTurn (e.turned + k))

/-- One turn of the other agents has been taken. -/
def Env.afterTurn (e : Env) : Env := { e with turns := e.turns.tail, turned := e.turned + 1 }

/-! ### Bus transactions -/

/-- The transaction has taken its place in the global order (R84). -/
def State.record (t : Transaction) (s : State) : State := { s with bus := s.bus ++ [.transaction t] }

/-- The level of every pin: a port that is an output is at `OUT[n]`, an input at its external level
(R144, `PinXorPolarity`). -/
def pinLevels (t : Target) (external : Byte) : Byte := (t.out &&& ~~~t.cfg) ||| (external &&& t.cfg)

/-- `input_value()` (R144): a fresh draw, or the pins as just sampled XOR the polarity bits. -/
def inputValue (d : Draw) (s : State) : Byte :=
  match s.board.inputModel with
  | .free => d.input
  | .pinXorPolarity => pinLevels s.target s.env.pins ^^^ s.target.pol

/-- The byte a successful read of a register returns (R140). -/
def readValue (r : Reg) (d : Draw) (s : State) : Byte :=
  match r with
  | .input => inputValue d s
  | .csr c => s.target.reg c

/-- A transaction no target answers: it fails and changes no target state (R81, R143, D24). -/
def unanswered (ag : Agent) (slave : SlaveAddr) (rq : Request) (s : State) : State :=
  s.record { agent := ag, slave := slave, request := rq, answer := .fail, landed := false }

/-- `BusRead(slave, idx)` (R140), one atomic step of the target (R76). -/
def busRead (ag : Agent) (slave : SlaveAddr) (r : Reg) (s : State) : State × Answer :=
  if slave = s.board.targetAddr then
    let d := s.env.drawAt 0
    let s := { s with env := s.env.afterDraw }
    if d.fail then
      (({ s with target := s.target.point d.cmd }).record
        { agent := ag, slave := slave, request := .access (.read r), answer := .fail, landed := false },
       .fail)
    else
      let v := readValue r d s
      (({ s with target := s.target.point (indexOf s.board.regIndex r) }).record
        { agent := ag, slave := slave, request := .access (.read r), answer := .data v, landed := false },
       .data v)
  else (unanswered ag slave (.access (.read r)) s, .fail)

/-- `BusWrite(slave, idx, v)` for the three writable registers (R141), one atomic step of the target
(R76). A failed write may have landed (R142). -/
def busWrite (ag : Agent) (slave : SlaveAddr) (c : Csr) (v : Byte) (s : State) : State × Answer :=
  if slave = s.board.targetAddr then
    let d := s.env.drawAt 0
    let s := { s with env := s.env.afterDraw }
    if d.fail then
      let t := s.target.point d.cmd
      (({ s with target := if d.applied then t.write c v else t }).record
        { agent := ag, slave := slave, request := .access (.write c v), answer := .fail,
          landed := d.applied },
       .fail)
    else
      (({ s with target := (s.target.point (indexOf s.board.regIndex (.csr c))).write c v }).record
        { agent := ag, slave := slave, request := .access (.write c v), answer := .done, landed := true },
       .done)
  else (unanswered ag slave (.access (.write c v)) s, .fail)

/-- One bus transaction. -/
def transact (ag : Agent) (slave : SlaveAddr) (acc : Access) (s : State) : State × Answer :=
  match acc with
  | .read r => busRead ag slave r s
  | .write c v => busWrite ag slave c v s

/-- A primitive transaction issued by itself. -/
def direct (slave : SlaveAddr) (acc : Access) (s : State) : State :=
  (transact .direct slave acc s).1.answered (transact .direct slave acc s).2

/-- A primitive transaction issued by itself that no target answers (R143). -/
def directUnanswered (slave : SlaveAddr) (rq : Request) (s : State) : State :=
  (unanswered .direct slave rq s).answered .fail

/-! ### The other agents (R85) -/

/-- One transaction of another agent on the target (R85). -/
def environmentAccess (s : State) (acc : Access) : State :=
  (transact .environment s.board.targetAddr acc s).1

/-- The other agents' turn at a transaction boundary: none when EXCLUSIVE, otherwise any finite number
of their transactions (R85, D14). -/
def environmentTurn (s : State) : State :=
  if s.board.exclusive then s
  else (s.env.turnAt 0).foldl environmentAccess { s with env := s.env.afterTurn }

/-! ### Errors (R300, R307): no trap, no saved state, no vector -/

/-- Taking an error: the operation ends, returns `Err(e)` and the controller goes to Idle (R16, R300). -/
def raise (e : ErrorKind) (s : State) : State := s.complete (.err e)

/-- A successful return (R16 `return v`). -/
def returnOk (v : Value) (s : State) : State := s.complete (.ok v)

/-! ### Power (R316) -/

/-- A power cycle of the target, between operations: the register file is in its power-on state, the
command pointer unspecified (R48, R316, D15; log 20). -/
def powerCycle (s : State) : State :=
  { s with
    target := Target.powerOn (s.env.drawAt 0).cmd
    env := s.env.afterDraw
    bus := s.bus ++ [.powerCycle] }

/-! ### Frames that are no instruction (R108, R152) -/

/-- The refusal of a frame addressed to the target that the decoder rejects. A reserved command byte
and a frame longer than its format share one refusal (R152). -/
def frameRefusal : FrameError → Refusal
  | .reservedCommand => .reservedCommand
  | .tooLong => .reservedCommand
  | .empty => .malformedFrame .empty
  | .readFirst => .malformedFrame .readFirst
  | .foreignAddress => .malformedFrame .foreignAddress
  | .noCommand => .malformedFrame .noCommand
  | .noData => .malformedFrame .noData
  | .addressesDiffer => .malformedFrame .addressesDiffer

/-- A frame the decoder rejects: another address's frame fails without effect (R143 comes first in
R140 and R141); one addressed to the target is refused (R152). -/
def rejectFrame (e : FrameError) (bs : List Byte) (s : State) : Host.Outcome State Fault Refusal :=
  match bs with
  | [] => .refused (frameRefusal e)
  | b :: _ =>
    if slaveOf b = s.board.targetAddr then .refused (frameRefusal e)
    else .next (directUnanswered (slaveOf b) (.bytes bs) s)

end Sys2Proof.Machine
end

