-- ==== Sys2Proof/Machine/Controller.lean ====
section
/-! DEFINITION. The controller's operations as sequences of transactions (30_encoding.md R111;
10_state.md R43): what each operation does next after a number of completed transactions, and the run
of an operation from any of its Busy states to its result. -/

namespace Sys2Proof.Machine

/-- What an operation does next. -/
inductive Next where
  /-- an operand fails its check, and the operation raises InvalidArgument -/
  | reject
  /-- it checks its handle and issues this transaction -/
  | emit (acc : Access)
  /-- it returns Ok with this value -/
  | finish (v : Value)
  /-- the operation passes through no such state -/
  | stuck
  deriving DecidableEq, Repr

/-- GET_REGISTER after `step` transactions (R174). -/
def nextGet (r : Reg) : Nat → Option Byte → Next
  | 0, _ => .emit (.read r)
  | 1, some b => .finish (.byte b)
  | _, _ => .stuck

/-- SET_REGISTER after `step` transactions (R175). -/
def nextSet (c : Csr) (v : Byte) : Nat → Next
  | 0 => .emit (.write c v)
  | 1 => .finish .unit
  | _ => .stuck

/-- PORT_READ after `step` transactions (R207). -/
def nextPortRead (p : Port) : Nat → Option Byte → Next
  | 0, _ => .emit (.read .input)
  | 1, some b => .finish (.level (levelOf (bitGet b p)))
  | _, _ => .stuck

/-- The shared read-modify-write after `step` transactions (R206): the write follows every successful
read, whether or not the byte changes (R211). -/
def nextRmw (c : Csr) (p : Port) (x : Bool) : Nat → Option Byte → Next
  | 0, _ => .emit (.read (.csr c))
  | 1, some b => .emit (.write c (withBitSet b p x))
  | 2, _ => .finish .unit
  | _, _ => .stuck

/-- RESET after `step` transactions: OUT, then POL, then CFG (R240, R241). -/
def nextReset : Nat → Next
  | 0 => .emit (.write .output (Config.default .output))
  | 1 => .emit (.write .polarity (Config.default .polarity))
  | 2 => .emit (.write .configuration (Config.default .configuration))
  | 3 => .finish .unit
  | _ => .stuck

/-- An operation one of whose operands fails its check: it is rejected before any transaction
(R173, R179, R204, R205), so no later step of it exists. -/
def nextRejected : Nat → Next
  | 0 => .reject
  | _ => .stuck

/-- The operand of a port operation's value and its port, both checked (R204, R205). -/
def portAndBit (p : Int) (bit : Option Bool) : Option (Port × Bool) :=
  (portOf p).bind fun n => bit.map fun x => (n, x)

/-- The read-modify-write of a port operation, or its rejection (R208 to R210). -/
def nextPort (c : Csr) (operands : Option (Port × Bool)) (step : Nat) (rd : Option Byte) : Next :=
  match operands with
  | some (n, x) => nextRmw c n x step rd
  | none => nextRejected step

/-- What an operation does next after `step` transactions, `rd` being the byte last read (R43, R111). -/
def Op.next (op : Op) (step : Nat) (rd : Option Byte) : Next :=
  match op with
  | .getRegister r =>
    match regOfCode r with
    | some q => nextGet q step rd
    | none => nextRejected step
  | .setRegister r v =>
    match csrOfCode r with
    | some c => nextSet c v step
    | none => nextRejected step
  | .resetRegister r =>
    match csrOfCode r with
    | some c => nextSet c (Config.default c) step
    | none => nextRejected step
  | .portRead p =>
    match portOf p with
    | some n => nextPortRead n step rd
    | none => nextRejected step
  | .portWrite p l => nextPort .output (portAndBit p ((levelOfRaw l).map levelBit)) step rd
  | .portPolarity p q => nextPort .polarity (portAndBit p ((polarityOfRaw q).map polarityBit)) step rd
  | .portDirection p d =>
    nextPort .configuration (portAndBit p ((directionOfRaw d).map directionBit)) step rd
  | .reset => nextReset step

/-- The other agents' turn before the controller's next transaction: it falls between two consecutive
transactions of the operation, so there is none before the first (R85). -/
def turnBefore (step : Nat) (s : State) : State := if step = 0 then s else environmentTurn s

/-- Run an operation on to its result (R43, R83). Each transaction belongs to a call that validates the
handle first (R172): an invalid one raises InvalidArgument. The first transaction that fails ends the
operation with TransportFailure and no further one is issued (R302, R306). The first argument bounds the
remaining moves; no operation has more than four (R411). -/
def runOp : Nat → Op → Nat → Option Byte → State → State
  | 0, _, _, _, s => s
  | fuel + 1, op, step, rd, s =>
    match op.next step rd with
    | .stuck => s
    | .reject => raise .invalidArgument s
    | .finish v => returnOk v s
    | .emit acc =>
      match s.slave with
      | none => raise .invalidArgument s
      | some a =>
        let (s, ans) := transact .controller a acc (turnBefore step s)
        match ans with
        | .fail => raise .transportFailure s
        | .data d => runOp fuel op (step + 1) (some d) { s with ctrl := .busy op (step + 1) (some d) }
        | .done => runOp fuel op (step + 1) rd { s with ctrl := .busy op (step + 1) rd }

/-- The most moves an operation makes: three transactions and its return (R411). -/
def opMoves : Nat := 4

/-- One call: the operation starts in `Busy(op, 0, none)` and runs to its result (R43). Its checks come
before any transaction (R172, R178, R305). -/
def callOp (op : Op) (s : State) : State :=
  runOp opMoves op 0 none { s with ctrl := .busy op 0 none }

/-- Run a busy controller on to the result of its operation (R43). -/
def resumeOp (op : Op) (step : Nat) (rd : Option Byte) (s : State) :
    Host.Outcome State Fault Refusal :=
  match op.next step rd with
  | .stuck => .fault .controllerStuck
  | .reject => .next (runOp opMoves op step rd s)
  | .emit _ => .next (runOp opMoves op step rd s)
  | .finish _ => .next (runOp opMoves op step rd s)

end Sys2Proof.Machine
end

