-- ==== Sys2Proof/Machine/PortOps.lean ====
section
/-! DEFINITION. The port-level bit operations (42_port_ops.md R207 to R210). -/

namespace Sys2Proof.Machine

/-- PORT_READ (R207): one bit of Input, no write. -/
def execPortRead (p : Int) (s : State) : Host.Outcome State Fault Refusal :=
  .next (callOp (.portRead p) s)

/-- PORT_WRITE (R208): read-modify-write of OUT. -/
def execPortWrite (p l : Int) (s : State) : Host.Outcome State Fault Refusal :=
  .next (callOp (.portWrite p l) s)

/-- PORT_POLARITY (R209): read-modify-write of POL. -/
def execPortPolarity (p q : Int) (s : State) : Host.Outcome State Fault Refusal :=
  .next (callOp (.portPolarity p q) s)

/-- PORT_DIRECTION (R210): read-modify-write of CFG. -/
def execPortDirection (p d : Int) (s : State) : Host.Outcome State Fault Refusal :=
  .next (callOp (.portDirection p d) s)

end Sys2Proof.Machine
end

