-- ==== Sys2Proof/Machine/Primitive.lean ====
section
/-! DEFINITION. The primitive bus transactions as instructions (40_transport.md R144 to R151). -/

namespace Sys2Proof.Machine

/-- RD.IN (R144): `BusRead(a, 0x00)`. -/
def execRdIn (a : SlaveAddr) (s : State) : Host.Outcome State Fault Refusal :=
  .next (direct a (.read .input) s)

/-- RD.OUT (R145): `BusRead(a, 0x01)`. -/
def execRdOut (a : SlaveAddr) (s : State) : Host.Outcome State Fault Refusal :=
  .next (direct a (.read (.csr .output)) s)

/-- RD.POL (R146): `BusRead(a, 0x02)`. -/
def execRdPol (a : SlaveAddr) (s : State) : Host.Outcome State Fault Refusal :=
  .next (direct a (.read (.csr .polarity)) s)

/-- RD.CFG (R147): `BusRead(a, 0x03)`. -/
def execRdCfg (a : SlaveAddr) (s : State) : Host.Outcome State Fault Refusal :=
  .next (direct a (.read (.csr .configuration)) s)

/-- WR.OUT (R148): `BusWrite(a, 0x01, v)`. -/
def execWrOut (a : SlaveAddr) (v : Byte) (s : State) : Host.Outcome State Fault Refusal :=
  .next (direct a (.write .output v) s)

/-- WR.POL (R149): `BusWrite(a, 0x02, v)`. -/
def execWrPol (a : SlaveAddr) (v : Byte) (s : State) : Host.Outcome State Fault Refusal :=
  .next (direct a (.write .polarity v) s)

/-- WR.CFG (R150): `BusWrite(a, 0x03, v)`. -/
def execWrCfg (a : SlaveAddr) (v : Byte) (s : State) : Host.Outcome State Fault Refusal :=
  .next (direct a (.write .configuration v) s)

/-- WR.IN (R151): refused at the target. At any other address the transaction fails first, with no
target effect (R141's first line, R143). -/
def execWrIn (a : SlaveAddr) (v : Byte) (s : State) : Host.Outcome State Fault Refusal :=
  if a = s.board.targetAddr then .refused .writeToInput
  else .next (directUnanswered a (.bytes (writeFrame s.board.regIndex a .input v)) s)

end Sys2Proof.Machine
end

