-- ==== Sys2Proof/Machine/RegisterOps.lean ====
section
/-! DEFINITION. The register-level operations (41_register_ops.md R174 to R176). -/

namespace Sys2Proof.Machine

/-- GET_REGISTER (R174): any of the four registers, IN included (C2). -/
def execGetRegister (r : Nat) (s : State) : Host.Outcome State Fault Refusal :=
  .next (callOp (.getRegister r) s)

/-- SET_REGISTER (R175): IN is rejected (R179). -/
def execSetRegister (r : Nat) (v : Byte) (s : State) : Host.Outcome State Fault Refusal :=
  .next (callOp (.setRegister r v) s)

/-- RESET_REGISTER (R176): writes the register's default; IN is rejected (R179). -/
def execResetRegister (r : Nat) (s : State) : Host.Outcome State Fault Refusal :=
  .next (callOp (.resetRegister r) s)

end Sys2Proof.Machine
end

