-- ==== Sys2Proof/Machine/ResetOp.lean ====
section
/-! DEFINITION. The whole-device reset operation (43_reset_op.md R240 to R244). -/

namespace Sys2Proof.Machine

/-- RESET (R240): OUT, POL and CFG to their defaults, in that order; stops at the first failure. -/
def execReset (s : State) : Host.Outcome State Fault Refusal :=
  .next (callOp .reset s)

end Sys2Proof.Machine
end

