-- ==== Sys2Proof/Machine/Dispatch.lean ====
section
/-! DEFINITION. The dispatch: one arm for each instruction, each one direct call of its meaning. -/

namespace Sys2Proof.Machine

/-- The meaning of an instruction. -/
def exec (i : Instr) (s : State) : Host.Outcome State Fault Refusal :=
  match i with
  -- primitive bus transactions (40_transport.md)
  | .rdIn a => Sys2Proof.Machine.execRdIn a s
  | .rdOut a => Sys2Proof.Machine.execRdOut a s
  | .rdPol a => Sys2Proof.Machine.execRdPol a s
  | .rdCfg a => Sys2Proof.Machine.execRdCfg a s
  | .wrOut a v => Sys2Proof.Machine.execWrOut a v s
  | .wrPol a v => Sys2Proof.Machine.execWrPol a v s
  | .wrCfg a v => Sys2Proof.Machine.execWrCfg a v s
  | .wrIn a v => Sys2Proof.Machine.execWrIn a v s
  -- register-level operations (41_register_ops.md)
  | .getRegister r => Sys2Proof.Machine.execGetRegister r s
  | .setRegister r v => Sys2Proof.Machine.execSetRegister r v s
  | .resetRegister r => Sys2Proof.Machine.execResetRegister r s
  -- port-level operations (42_port_ops.md)
  | .portRead p => Sys2Proof.Machine.execPortRead p s
  | .portWrite p l => Sys2Proof.Machine.execPortWrite p l s
  | .portPolarity p q => Sys2Proof.Machine.execPortPolarity p q s
  | .portDirection p d => Sys2Proof.Machine.execPortDirection p d s
  -- whole-device reset (43_reset_op.md)
  | .reset => Sys2Proof.Machine.execReset s

end Sys2Proof.Machine
end

