-- ==== Sys2Proof/Machine/Fetch.lean ====
section
/-! DEFINITION. Where the machine takes its next instruction from. There is no program counter and no
instruction memory (10_state.md R42; 20_memory.md R88): instructions are calls and frames the outside
has handed in, taken in order (R83). -/

namespace Sys2Proof.Machine

/-- What a step finds to do: run an instruction, or something settled without one. -/
inductive Fetched where
  | instr (i : Instr) (s : State)
  | settled (o : Host.Outcome State Fault Refusal)

/-- A frame on the bus: the decoder's instruction, or its rejection. -/
def fetchFrame (bs : List Byte) (s : State) : Fetched :=
  match decode s.board.regIndex bs with
  | .ok i => .instr i s
  | .error e => .settled (rejectFrame e bs s)

/-- The fixed-address variant's handle: its bus and the bound address (D20, log 21). -/
def fixedHandle (bus : BusRef) (s : State) : Handle := { bus := bus, addr := s.board.fixedAddr }

/-- The next thing to do. A busy controller runs its operation on; an idle one takes the first input;
with no input the machine stays as it is (R401: no operation starts on its own). -/
def fetch (s : State) : Fetched :=
  match s.ctrl with
  | .busy op step rd => .settled (resumeOp op step rd s)
  | .idle =>
    match s.inbox with
    | [] => .settled (.next s)
    | .call h i :: rest => .instr i { s with inbox := rest, handle := h }
    | .fixedCall bus i :: rest => .instr i { s with inbox := rest, handle := some (fixedHandle bus s) }
    | .frame bs :: rest => fetchFrame bs { s with inbox := rest }
    | .powerCycle :: rest => .settled (.next (powerCycle { s with inbox := rest }))

/-- The boundary after a step, before the next one: the other agents' turn (R85). -/
def settle (o : Host.Outcome State Fault Refusal) : Host.Outcome State Fault Refusal :=
  match o with
  | .next s => .next (environmentTurn s)
  | .fault f => .fault f
  | .refused r => .refused r

/-- Place a raw frame where the next step takes its instruction: controller idle, the frame first in
the inbox. -/
def placeFrame (bs : List Byte) (s : State) : State :=
  { s with ctrl := .idle, inbox := .frame bs :: s.inbox }

end Sys2Proof.Machine
end

