-- ==== Sys2Proof/Machine/Step.lean ====
section
/-! DEFINITION. One step of the machine, and the host's way of placing one instruction. -/

namespace Sys2Proof.Machine

/-- One step: the next instruction (or what else there is to do), then the other agents' turn. -/
def step (s : State) : Host.Outcome State Fault Refusal :=
  match fetch s with
  | .instr i t => settle (exec i t)
  | .settled o => settle o

/-- `s` with the frame of an opcode-table word placed where the next step takes its instruction. -/
def State.withFetchWord (s : State) (nbits w : Nat) : State := placeFrame (tableBytes nbits w) s

end Sys2Proof.Machine
end

