-- ==== Sys2Proof/Safety.lean ====
section
/-! DEFINITION. The terms in which claims about the machine are stated: when a caller has met its
duties (70_reset_and_hazards.md R403), what the bus log says the registers hold (20_memory.md R84),
and what counts as legal traffic and a legal board. -/

namespace Sys2Proof.Machine

/-! ### Names of operands -/

/-- The raw code of a writable register (R106). -/
def csrCode : Csr → Nat
  | .output => 1
  | .polarity => 2
  | .configuration => 3

/-- The raw code of a register (R106). -/
def regCode : Reg → Nat
  | .input => 0
  | .csr c => csrCode c

/-- The raw value of a level operand (R105). -/
def levelRaw : Level → Int
  | .low => 0
  | .high => 1

/-- The raw value of a polarity operand (R105). -/
def polarityRaw : Polarity → Int
  | .original => 0
  | .inverted => 1

/-- The raw value of a direction operand (R105). -/
def directionRaw : Direction → Int
  | .output => 0
  | .input => 1

/-- The operation a composite instruction calls (R110). -/
def opOf : Instr → Option Op
  | .rdIn _ | .rdOut _ | .rdPol _ | .rdCfg _ => none
  | .wrOut _ _ | .wrPol _ _ | .wrCfg _ _ | .wrIn _ _ => none
  | .getRegister r => some (.getRegister r)
  | .setRegister r v => some (.setRegister r v)
  | .resetRegister r => some (.resetRegister r)
  | .portRead p => some (.portRead p)
  | .portWrite p l => some (.portWrite p l)
  | .portPolarity p q => some (.portPolarity p q)
  | .portDirection p d => some (.portDirection p d)
  | .reset => some .reset

/-! ### Duties of the caller -/

/-- The handle passes VALIDATE and names the address the chip answers (R403 points 1 and 2). -/
def State.Ready (s : State) : Prop :=
  ∃ h, s.handle = some h ∧ validate s.board.busOpen (some h) = true ∧ h.addr = s.board.targetAddr

/-- The `k`-th coming transaction at the target does not fail (R142). -/
def State.Succeeds (s : State) (k : Nat) : Prop := (s.env.drawAt k).fail = false

/-- The `k`-th coming transaction at the target fails (R142). -/
def State.Fails (s : State) (k : Nat) : Prop := (s.env.drawAt k).fail = true

/-! ### Entries of the bus log -/

/-- A transaction of the controller at the target's address. -/
def State.controllerTx (s : State) (acc : Access) (ans : Answer) (landed : Bool) : Event :=
  .transaction
    { agent := .controller, slave := s.board.targetAddr, request := .access acc, answer := ans,
      landed := landed }

/-- A primitive transaction of the program at slave address `a`. -/
def directTx (a : SlaveAddr) (acc : Access) (ans : Answer) (landed : Bool) : Event :=
  .transaction
    { agent := .direct, slave := a, request := .access acc, answer := ans, landed := landed }

/-- Whether an entry of the log is a transaction of the controller. -/
def Event.byController : Event → Bool
  | .powerCycle => false
  | .transaction t => decide (t.agent = .controller)

/-- The access an entry of the log asked for, if it is a transaction that names one. -/
def Event.access? : Event → Option Access
  | .powerCycle => none
  | .transaction t =>
    match t.request with
    | .access acc => some acc
    | .bytes _ => none

/-- Whether an entry of the log is a transaction that failed. -/
def Event.failed : Event → Bool
  | .powerCycle => false
  | .transaction t => decide (t.answer = .fail)

/-! ### The memory model (R84) -/

/-- A register's byte after an entry of the log, given its byte before: a write that reached the
register replaces it, a power cycle restores the default (R316), anything else leaves it. -/
def Event.registerAfter (c : Csr) (before : Byte) : Event → Byte
  | .powerCycle => Config.default c
  | .transaction t =>
    match t.request with
    | .access (.write c' v) => if t.landed ∧ c' = c then v else before
    | .access (.read _) => before
    | .bytes _ => before

/-- What the log says a register holds: the byte of the latest write that reached it, or the power-on
default if there is none (R84). -/
def lastWritten (c : Csr) (log : List Event) : Byte :=
  log.foldl (Event.registerAfter c) (Config.default c)

/-- Every writable register holds what the log says (R84). -/
def RegistersMatchBus (s : State) : Prop := ∀ c, s.target.reg c = lastWritten c s.bus

/-- Every successful read of a writable register in the log returned what the earlier part of the log
says the register held (R84). -/
def ReadsMatchBus (s : State) : Prop :=
  ∀ before t after c d, s.bus = before ++ .transaction t :: after →
    t.request = .access (.read (.csr c)) → t.answer = .data d → d = lastWritten c before

/-! ### Legal traffic and boards -/

/-- The controller addresses only [0x38, 0x3F] and emits only the target's accesses: never WR.IN, never
a reserved command (R70, R80, R151, R152). -/
def ControllerTrafficLegal (s : State) : Prop :=
  ∀ t, Event.transaction t ∈ s.bus → t.agent = .controller →
    addrInRange t.slave = true ∧ ∃ acc, t.request = .access acc

/-- The other agents' transactions are the accesses R85 lists, at the target's address. -/
def EnvironmentTrafficLegal (s : State) : Prop :=
  ∀ t, Event.transaction t ∈ s.bus → t.agent = .environment →
    t.slave = s.board.targetAddr ∧ ∃ acc, t.request = .access acc

/-- The four command bytes differ, so each selects one register (R11, R31). -/
def IndexDistinct (m : RegIndex) : Prop := ∀ r q, indexOf m r = indexOf m q → r = q

/-- TARGET_ADDR and FIXED_ADDR lie in [ADDR_MIN, ADDR_MAX] (R13), and REG_INDEX names four registers. -/
def BoardLegal (s : State) : Prop :=
  addrInRange s.board.targetAddr = true ∧ addrInRange s.board.fixedAddr = true ∧
  IndexDistinct s.board.regIndex

/-- A step that goes on: it neither faults nor is refused. -/
def State.RunsOn (s : State) : Prop := ∃ t, step s = .next t

/-! ### What an operation may touch -/

/-- The writable registers an instruction's rule lets it write (R49). -/
def mayWrite : Instr → List Csr
  | .rdIn _ | .rdOut _ | .rdPol _ | .rdCfg _ => []
  | .wrOut _ _ => [.output]
  | .wrPol _ _ => [.polarity]
  | .wrCfg _ _ => [.configuration]
  | .wrIn _ _ => []
  | .getRegister _ => []
  | .setRegister r _ => (csrOfCode r).toList
  | .resetRegister r => (csrOfCode r).toList
  | .portRead _ => []
  | .portWrite _ _ => [.output]
  | .portPolarity _ _ => [.polarity]
  | .portDirection _ _ => [.configuration]
  | .reset => [.output, .polarity, .configuration]

/-- How many transactions an instruction makes when it succeeds (R111, R411). -/
def transactionsOf : Instr → Nat
  | .rdIn _ | .rdOut _ | .rdPol _ | .rdCfg _ => 1
  | .wrOut _ _ | .wrPol _ _ | .wrCfg _ _ | .wrIn _ _ => 1
  | .getRegister _ | .setRegister _ _ | .resetRegister _ => 1
  | .portRead _ => 1
  | .portWrite _ _ | .portPolarity _ _ | .portDirection _ _ => 2
  | .reset => 3

/-! ### Operations as their pseudocode writes them -/

/-- The read-modify-write at slave address `a`: read `c`, give the other agents their turn, write the
byte back with bit `n` set to `x` (R206, R213); the first failure ends it (R306). -/
def rmwOutcome (a : SlaveAddr) (c : Csr) (n : Port) (x : Bool) (s : State) : State :=
  match busRead .controller a (.csr c) s with
  | (u, .data b) =>
    match busWrite .controller a c (withBitSet b n x) (environmentTurn u) with
    | (w, .done) => w.complete (.ok .unit)
    | (w, _) => w.complete (.err .transportFailure)
  | (u, _) => u.complete (.err .transportFailure)

/-- RESET at slave address `a`: OUT, POL, CFG in that order, the other agents' turn between two writes;
the first failure ends it (R240, R241). -/
def resetOutcome (a : SlaveAddr) (s : State) : State :=
  match busWrite .controller a .output 0xFF#8 s with
  | (u, .done) =>
    match busWrite .controller a .polarity 0x00#8 (environmentTurn u) with
    | (v, .done) =>
      match busWrite .controller a .configuration 0xFF#8 (environmentTurn v) with
      | (w, .done) => w.complete (.ok .unit)
      | (w, _) => w.complete (.err .transportFailure)
    | (v, _) => v.complete (.err .transportFailure)
  | (u, _) => u.complete (.err .transportFailure)

/-! ### Forgetting the command pointer (R41) -/

/-- The state with its command pointer set to `c`. -/
def State.withCmd (c : Byte) (s : State) : State := { s with target := s.target.point c }

/-- An outcome with the command pointer of its state set to 0. -/
def forgetCmd : Host.Outcome State Fault Refusal → Host.Outcome State Fault Refusal
  | .next s => .next (s.withCmd 0x00#8)
  | .fault f => .fault f
  | .refused r => .refused r

end Sys2Proof.Machine
end

