-- ==== Sys2Proof/Certificates/Slice0/Obligations.lean ====
section
/-! DEFINITION. The statements for the provers, from the numbered rules of spec/. -/

open Sys2Proof Sys2Proof.Machine

/-! ### Encoding -/

/-- R101, R102, R107, R11: under every REG_INDEX of four different command bytes, every well-formed
primitive transaction has a frame, and decoding it gives the transaction back. The layout of the address
byte is the specification's general knowledge (G3), log 16. -/
def Obligations.DecodeEncodeRoundTrip : Prop :=
  ∀ (m : RegIndex) (i : Instr), IndexDistinct m → i.wellFormed = true → i.isComposite = false →
    ∃ bs, encode m i = some bs ∧ decode m bs = .ok i

/-- R107 to R109: under every REG_INDEX, every frame the decoder accepts is the frame of one well-formed
transaction, byte for byte but for the byte the target sends in a read. -/
def Obligations.EncodeDecodeRoundTrip : Prop :=
  ∀ (m : RegIndex) (bs : List Byte) (i : Instr), decode m bs = .ok i →
    i.wellFormed = true ∧ i.isComposite = false ∧
    ∃ bs', encode m i = some bs' ∧ bs'.length = bs.length ∧ bs'.take 3 = bs.take 3

/-- R107: words written out from the table's patterns, at several addresses and data bytes, under the
default REG_INDEX (log 1). -/
def Obligations.TableWordsDecode : Prop :=
  decodeTableWord 32 0x70007100 = some (.rdIn 0x38#7) ∧
  decodeTableWord 32 0x700171FF = some (.rdOut 0x38#7) ∧
  decodeTableWord 32 0x7E027F00 = some (.rdPol 0x3F#7) ∧
  decodeTableWord 32 0x740375A5 = some (.rdCfg 0x3A#7) ∧
  decodeTableWord 24 0x7001F7 = some (.wrOut 0x38#7 0xF7#8) ∧
  decodeTableWord 24 0x700280 = some (.wrPol 0x38#7 0x80#8) ∧
  decodeTableWord 24 0x7E03F7 = some (.wrCfg 0x3F#7 0xF7#8) ∧
  decodeTableWord 24 0x700012 = some (.wrIn 0x38#7 0x12#8)

/-- R104: an address byte is the slave address shifted left by one, with the direction in bit 0. The
layout is the specification's general knowledge (G3), log 16. -/
def Obligations.AddressByteLayout : Prop :=
  ∀ (a : SlaveAddr) (rw : Bool),
    (addressByte a rw).toNat = 2 * a.toNat + (if rw then 1 else 0) ∧
    slaveOf (addressByte a rw) = a ∧ isReadByte (addressByte a rw) = rw

/-- R152 (a decision of the specification, D3; log 15): a frame addressed to the target is refused when
its command byte is none of the four in REG_INDEX, in either format, and when it is longer than its
format. Under the default REG_INDEX (R11, log 1) those command bytes are 0x04 to 0xFF. -/
def Obligations.ReservedFramesRefused : Prop :=
  (∀ c : Byte, (∀ r, indexOf defaultIndex r ≠ c) ↔ 4 ≤ c.toNat) ∧
  ∀ s : State, addrInRange s.board.targetAddr = true →
    (∀ c d : Byte, (∀ r, indexOf s.board.regIndex r ≠ c) →
      step (placeFrame [addressByte s.board.targetAddr false, c, d] s) = .refused .reservedCommand ∧
      step (placeFrame [addressByte s.board.targetAddr false, c,
        addressByte s.board.targetAddr true, d] s) = .refused .reservedCommand) ∧
    (∀ c d e : Byte, isReadByte d = false →
      step (placeFrame [addressByte s.board.targetAddr false, c, d, e] s) =
        .refused .reservedCommand) ∧
    (∀ (b : Byte) (rest : List Byte), slaveOf b = s.board.targetAddr → 4 ≤ rest.length →
      step (placeFrame (b :: rest) s) = .refused .reservedCommand)

/-- R108, R143 (D24, log 26): a frame that is no instruction and is addressed elsewhere fails and
touches neither the target nor the draws. -/
def Obligations.ForeignFrameFails : Prop :=
  ∀ (s : State) (b : Byte) (rest : List Byte) (e : FrameError),
    slaveOf b ≠ s.board.targetAddr → decode s.board.regIndex (b :: rest) = .error e →
    ∃ u, step (placeFrame (b :: rest) s) = .next (environmentTurn u) ∧
      u.target = s.target ∧ u.env = s.env ∧ u.returned = some (.transaction .fail)

/-! ### Masking functions -/

/-- R202: the branchless formula is "clear bit, then OR in value". -/
def Obligations.WithBitSetIsClearThenOr : Prop :=
  ∀ (b : Byte) (n : Port) (v : Bool),
    withBitSet b n v = (b &&& ~~~(1#8 <<< n.val)) ||| (bitByte v <<< n.val)

/-- R200, R203: bit_get is the bit; only the targeted bit of with_bit_set can change; a bit that already
has the value leaves the byte. -/
def Obligations.WithBitSetFrame : Prop :=
  ∀ (b : Byte) (n : Port) (v : Bool),
    bitGet b n = bitByte (b.getLsbD n.val) ∧
    bitGet (withBitSet b n v) n = bitByte v ∧
    (∀ k : Port, k ≠ n → bitGet (withBitSet b n v) k = bitGet b k) ∧
    (b.getLsbD n.val = v → withBitSet b n v = b)

/-! ### Checks before any I/O -/

/-- R170, R171: what VALIDATE accepts, for every BUS_OPEN; and for a descriptor bus (R45, D9, log 13). -/
def Obligations.ValidateExactly : Prop :=
  (∀ (rule : OpenRule) (h : Option Handle), validate rule h = true ↔
    ∃ bus addr, h = some { bus := bus, addr := addr } ∧ busOpen rule bus = true ∧
      0x38 ≤ addr.toNat ∧ addr.toNat ≤ 0x3F) ∧
  (∀ h : Option Handle, validate .descriptor h = true ↔
    ∃ fd addr, h = some { bus := .opened fd, addr := addr } ∧ 0 ≤ fd ∧
      0x38 ≤ addr.toNat ∧ addr.toNat ≤ 0x3F)

/-- R172: with an invalid handle every operation returns InvalidArgument and does nothing else: no
transaction, no register, no draw. -/
def Obligations.InvalidHandleRejected : Prop :=
  ∀ (i : Instr) (s : State), i.isComposite = true → validate s.board.busOpen s.handle = false →
    exec i s = .next { s with ctrl := .idle, returned := some (.operation (.err .invalidArgument)) }

/-- R179: SET_REGISTER and RESET_REGISTER of IN return InvalidArgument and emit nothing. -/
def Obligations.InputWriteRejected : Prop :=
  ∀ (s : State) (v : Byte),
    exec (.setRegister (regCode .input) v) s =
      .next { s with ctrl := .idle, returned := some (.operation (.err .invalidArgument)) } ∧
    exec (.resetRegister (regCode .input)) s =
      .next { s with ctrl := .idle, returned := some (.operation (.err .invalidArgument)) }

/-- R173, R204, R205: a register code above 3, a port outside 0..7 and a value other than 0 and 1 return
InvalidArgument, whatever the handle, and emit nothing. -/
def Obligations.OperandOutOfRangeRejected : Prop :=
  ∀ s : State,
    (∀ (r : Nat) (v : Byte), 3 < r →
      ∀ i ∈ [Instr.getRegister r, .setRegister r v, .resetRegister r],
        exec i s =
          .next { s with ctrl := .idle, returned := some (.operation (.err .invalidArgument)) }) ∧
    (∀ p x : Int, (p < 0 ∨ 7 < p) →
      ∀ i ∈ [Instr.portRead p, .portWrite p x, .portPolarity p x, .portDirection p x],
        exec i s =
          .next { s with ctrl := .idle, returned := some (.operation (.err .invalidArgument)) }) ∧
    (∀ p x : Int, x ≠ 0 → x ≠ 1 →
      ∀ i ∈ [Instr.portWrite p x, .portPolarity p x, .portDirection p x],
        exec i s =
          .next { s with ctrl := .idle, returned := some (.operation (.err .invalidArgument)) })

/-- R301, R305: an operation returns InvalidArgument exactly when its handle is invalid or an operand is
one its row does not admit, whatever the draws say of the bus. -/
def Obligations.InvalidArgumentExactly : Prop :=
  ∀ (i : Instr) (s t : State), i.isComposite = true → exec i s = .next t →
    (t.returned = some (.operation (.err .invalidArgument)) ↔
      validate s.board.busOpen s.handle = false ∨ i.wellFormed = false)

/-! ### Primitive transactions -/

/-- R145 to R147: RD.OUT, RD.POL and RD.CFG at the target answer the register and change only the
command pointer, one draw and the log. -/
def Obligations.ReadCsrTransaction : Prop :=
  ∀ (s : State) (c : Csr), s.Succeeds 0 →
    exec (readInstr s.board.targetAddr (.csr c)) s =
      .next { s with
        env := s.env.afterDraw
        target := { s.target with cmd := indexOf s.board.regIndex (.csr c) }
        bus := s.bus ++
          [directTx s.board.targetAddr (.read (.csr c)) (.data (s.target.reg c)) false]
        returned := some (.transaction (.data (s.target.reg c))) }

/-- R144, `INPUT_MODEL = Free` (D5): RD.IN answers the draw, whatever OUT, POL and CFG hold. -/
def Obligations.ReadInputTransaction : Prop :=
  ∀ s : State, s.Succeeds 0 → s.board.inputModel = .free →
    exec (.rdIn s.board.targetAddr) s =
      .next { s with
        env := s.env.afterDraw
        target := { s.target with cmd := indexOf s.board.regIndex .input }
        bus := s.bus ++
          [directTx s.board.targetAddr (.read .input) (.data (s.env.drawAt 0).input) false]
        returned := some (.transaction (.data (s.env.drawAt 0).input)) }

/-- R144, `INPUT_MODEL = PinXorPolarity` (general knowledge, G6; log 3): bit by bit, the pin XOR the
polarity bit, where an output port's pin is at its OUT bit and an input port's at its external level. -/
def Obligations.ReadInputFromPins : Prop :=
  ∀ s : State, s.Succeeds 0 → s.board.inputModel = .pinXorPolarity →
    ∃ t d, exec (.rdIn s.board.targetAddr) s = .next t ∧
      t.returned = some (.transaction (.data d)) ∧
      t.target = { s.target with cmd := indexOf s.board.regIndex .input } ∧
      ∀ n : Port, d.getLsbD n.val =
        ((if s.target.cfg.getLsbD n.val then (s.env.drawAt 0).pins.getLsbD n.val
          else s.target.out.getLsbD n.val) ^^ s.target.pol.getLsbD n.val)

/-- R148 to R150: WR.OUT, WR.POL and WR.CFG at the target set their register to the byte, the command
pointer to the index, and nothing else of the register file. -/
def Obligations.WriteTransaction : Prop :=
  ∀ (s : State) (c : Csr) (v : Byte), s.Succeeds 0 →
    exec (writeInstr s.board.targetAddr v (.csr c)) s =
      .next { s with
        env := s.env.afterDraw
        target := { s.target.write c v with cmd := indexOf s.board.regIndex (.csr c) }
        bus := s.bus ++ [directTx s.board.targetAddr (.write c v) .done true]
        returned := some (.transaction .done) }

/-- R142 (D8, log 6): a read that fails on its way answers Fail and changes no register. -/
def Obligations.FailedReadTransaction : Prop :=
  ∀ (s : State) (r : Reg), s.Fails 0 →
    exec (readInstr s.board.targetAddr r) s =
      .next { s with
        env := s.env.afterDraw
        target := { s.target with cmd := (s.env.drawAt 0).cmd }
        bus := s.bus ++ [directTx s.board.targetAddr (.read r) .fail false]
        returned := some (.transaction .fail) }

/-- R142 (D8, log 6): a write that fails on its way answers Fail; its register is as before, or holds the
byte; the other registers are as before. -/
def Obligations.FailedWriteTransaction : Prop :=
  ∀ (s : State) (c : Csr) (v : Byte), s.Fails 0 →
    ∃ t, exec (writeInstr s.board.targetAddr v (.csr c)) s = .next t ∧
      t.returned = some (.transaction .fail) ∧
      ((s.env.drawAt 0).applied = true → t.target.reg c = v) ∧
      ((s.env.drawAt 0).applied = false → t.target.reg c = s.target.reg c) ∧
      (∀ c', c' ≠ c → t.target.reg c' = s.target.reg c') ∧
      t.target.cmd = (s.env.drawAt 0).cmd

/-- R143 (D24, log 26): a transaction whose slave address is not TARGET_ADDR fails and changes no target
state; WR.IN too. -/
def Obligations.WrongAddressFails : Prop :=
  ∀ (s : State) (a : SlaveAddr) (r : Reg) (v : Byte), a ≠ s.board.targetAddr →
    ∀ i ∈ [readInstr a r, writeInstr a v r],
      ∃ t, exec i s = .next t ∧ t.target = s.target ∧ t.env = s.env ∧
        t.returned = some (.transaction .fail)

/-- R151 (D4, log 14): WR.IN at the target is refused. -/
def Obligations.WriteToInputRefused : Prop :=
  ∀ (s : State) (v : Byte), exec (.wrIn s.board.targetAddr v) s = .refused .writeToInput

/-- R76 to R78: what a primitive transaction leaves, in every state in which it answers: the controller,
the handle, the inputs and the parameters; the log grows by one entry. -/
def Obligations.PrimitiveFrame : Prop :=
  ∀ (i : Instr) (s t : State), i.isComposite = false → exec i s = .next t →
    t.ctrl = s.ctrl ∧ t.handle = s.handle ∧ t.inbox = s.inbox ∧ t.board = s.board ∧
    ∃ e, t.bus = s.bus ++ [e]

/-! ### Operations, as their rules' pseudocode writes them -/

/-- R174. -/
def Obligations.GetRegisterRule : Prop :=
  ∀ (s : State) (r : Nat),
    (validate s.board.busOpen s.handle = false ∨ 3 < r →
      exec (.getRegister r) s =
        .next { s with ctrl := .idle, returned := some (.operation (.err .invalidArgument)) }) ∧
    (∀ h q, s.handle = some h → validate s.board.busOpen (some h) = true → r = regCode q →
      exec (.getRegister r) s =
        .next (match busRead .controller h.addr q s with
          | (u, .data d) => u.complete (.ok (.byte d))
          | (u, _) => u.complete (.err .transportFailure)))

/-- R175. -/
def Obligations.SetRegisterRule : Prop :=
  ∀ (s : State) (r : Nat) (v : Byte),
    (validate s.board.busOpen s.handle = false ∨ 3 < r ∨ r = regCode .input →
      exec (.setRegister r v) s =
        .next { s with ctrl := .idle, returned := some (.operation (.err .invalidArgument)) }) ∧
    (∀ h c, s.handle = some h → validate s.board.busOpen (some h) = true → r = csrCode c →
      exec (.setRegister r v) s =
        .next (match busWrite .controller h.addr c v s with
          | (u, .done) => u.complete (.ok .unit)
          | (u, _) => u.complete (.err .transportFailure)))

/-- R176: RESET_REGISTER checks, then is SET_REGISTER of the register's default. -/
def Obligations.ResetRegisterRule : Prop :=
  ∀ (s : State) (r : Nat),
    (validate s.board.busOpen s.handle = false ∨ 3 < r ∨ r = regCode .input →
      exec (.resetRegister r) s =
        .next { s with ctrl := .idle, returned := some (.operation (.err .invalidArgument)) }) ∧
    (∀ c, r = csrCode c →
      exec (.resetRegister r) s =
        exec (.setRegister r (match c with
          | .output => 0xFF#8
          | .polarity => 0x00#8
          | .configuration => 0xFF#8)) s)

/-- R207. -/
def Obligations.PortReadRule : Prop :=
  ∀ (s : State) (p : Int),
    (validate s.board.busOpen s.handle = false ∨ p < 0 ∨ 7 < p →
      exec (.portRead p) s =
        .next { s with ctrl := .idle, returned := some (.operation (.err .invalidArgument)) }) ∧
    (∀ (h : Handle) (n : Port), s.handle = some h → validate s.board.busOpen (some h) = true → p = n.val →
      exec (.portRead p) s =
        .next (match busRead .controller h.addr .input s with
          | (u, .data d) =>
            u.complete (.ok (.level (if d.getLsbD n.val then .high else .low)))
          | (u, _) => u.complete (.err .transportFailure)))

/-- R206, R208 to R210: PORT_WRITE, PORT_POLARITY and PORT_DIRECTION check their arguments, then are the
read-modify-write of OUT, POL and CFG. That the other agents (R85, R213) have exactly one turn, of any
number of accesses, between its two transactions is the model's choice (log 4). -/
def Obligations.ReadModifyWriteRule : Prop :=
  ∀ (s : State) (p : Int),
    (∀ x : Int, (validate s.board.busOpen s.handle = false ∨ p < 0 ∨ 7 < p ∨ (x ≠ 0 ∧ x ≠ 1)) →
      ∀ i ∈ [Instr.portWrite p x, .portPolarity p x, .portDirection p x],
        exec i s =
          .next { s with ctrl := .idle, returned := some (.operation (.err .invalidArgument)) }) ∧
    (∀ (h : Handle) (n : Port), s.handle = some h → validate s.board.busOpen (some h) = true → p = n.val →
      (∀ l, exec (.portWrite p (levelRaw l)) s =
        .next (rmwOutcome h.addr .output n (decide (l = .high)) s)) ∧
      (∀ q, exec (.portPolarity p (polarityRaw q)) s =
        .next (rmwOutcome h.addr .polarity n (decide (q = .inverted)) s)) ∧
      (∀ d, exec (.portDirection p (directionRaw d)) s =
        .next (rmwOutcome h.addr .configuration n (decide (d = .input)) s)))

/-- R240, R241: RESET with an invalid handle, and with a valid one. That the other agents (R85) have
exactly one turn, of any number of accesses, between two writes is the model's choice (log 4). -/
def Obligations.ResetRule : Prop :=
  ∀ s : State,
    (validate s.board.busOpen s.handle = false →
      exec .reset s =
        .next { s with ctrl := .idle, returned := some (.operation (.err .invalidArgument)) }) ∧
    (∀ h, s.handle = some h → validate s.board.busOpen (some h) = true →
      exec .reset s = .next (resetOutcome h.addr s))

/-! ### Operations that succeed: the whole next state -/

/-- R174 to R176: GET_REGISTER of a writable register and of IN, SET_REGISTER and RESET_REGISTER. The
command pointer follows R141; its existence is the specification's inference (R41, log 7). -/
def Obligations.RegisterOperationsComplete : Prop :=
  ∀ s : State, s.Ready → s.Succeeds 0 →
    (∀ c, exec (.getRegister (csrCode c)) s =
      .next { s with
        ctrl := .idle
        env := s.env.afterDraw
        target := { s.target with cmd := indexOf s.board.regIndex (.csr c) }
        bus := s.bus ++ [s.controllerTx (.read (.csr c)) (.data (s.target.reg c)) false]
        returned := some (.operation (.ok (.byte (s.target.reg c)))) }) ∧
    (s.board.inputModel = .free →
      exec (.getRegister (regCode .input)) s =
        .next { s with
          ctrl := .idle
          env := s.env.afterDraw
          target := { s.target with cmd := indexOf s.board.regIndex .input }
          bus := s.bus ++ [s.controllerTx (.read .input) (.data (s.env.drawAt 0).input) false]
          returned := some (.operation (.ok (.byte (s.env.drawAt 0).input))) }) ∧
    (∀ c v, exec (.setRegister (csrCode c) v) s =
      .next { s with
        ctrl := .idle
        env := s.env.afterDraw
        target := { s.target.write c v with cmd := indexOf s.board.regIndex (.csr c) }
        bus := s.bus ++ [s.controllerTx (.write c v) .done true]
        returned := some (.operation (.ok .unit)) }) ∧
    (∀ c, exec (.resetRegister (csrCode c)) s =
      .next { s with
        ctrl := .idle
        env := s.env.afterDraw
        target :=
          { s.target.write c (Config.default c) with cmd := indexOf s.board.regIndex (.csr c) }
        bus := s.bus ++ [s.controllerTx (.write c (Config.default c)) .done true]
        returned := some (.operation (.ok .unit)) })

/-- R207: PORT_READ returns the level of its bit of the byte that RD.IN answers, in both input models,
and writes no register. -/
def Obligations.PortReadCompletes : Prop :=
  ∀ (s : State) (n : Port), s.Ready → s.Succeeds 0 →
    ∃ b, exec (.rdIn s.board.targetAddr) s =
        .next { s with
          env := s.env.afterDraw
          target := { s.target with cmd := indexOf s.board.regIndex .input }
          bus := s.bus ++ [directTx s.board.targetAddr (.read .input) (.data b) false]
          returned := some (.transaction (.data b)) } ∧
      exec (.portRead n.val) s =
        .next { s with
          ctrl := .idle
          env := s.env.afterDraw
          target := { s.target with cmd := indexOf s.board.regIndex .input }
          bus := s.bus ++ [s.controllerTx (.read .input) (.data b) false]
          returned :=
            some (.operation (.ok (.level (if b.getLsbD n.val then .high else .low)))) }

/-- R208 to R211: PORT_WRITE, PORT_POLARITY and PORT_DIRECTION that succeed with no other agent: one
read, then one write of the new byte, emitted whether or not the byte changed. -/
def Obligations.PortOperationsComplete : Prop :=
  ∀ (s : State) (n : Port), s.Ready → s.board.exclusive = true → s.Succeeds 0 → s.Succeeds 1 →
    (∀ l, exec (.portWrite n.val (levelRaw l)) s =
      .next { s with
        ctrl := .idle
        env := s.env.afterDraw.afterDraw
        target :=
          { s.target with
            out := withBitSet s.target.out n (decide (l = .high))
            cmd := indexOf s.board.regIndex (.csr .output) }
        bus := s.bus ++
          [s.controllerTx (.read (.csr .output)) (.data s.target.out) false,
           s.controllerTx (.write .output (withBitSet s.target.out n (decide (l = .high)))) .done true]
        returned := some (.operation (.ok .unit)) }) ∧
    (∀ q, exec (.portPolarity n.val (polarityRaw q)) s =
      .next { s with
        ctrl := .idle
        env := s.env.afterDraw.afterDraw
        target :=
          { s.target with
            pol := withBitSet s.target.pol n (decide (q = .inverted))
            cmd := indexOf s.board.regIndex (.csr .polarity) }
        bus := s.bus ++
          [s.controllerTx (.read (.csr .polarity)) (.data s.target.pol) false,
           s.controllerTx (.write .polarity (withBitSet s.target.pol n (decide (q = .inverted))))
             .done true]
        returned := some (.operation (.ok .unit)) }) ∧
    (∀ d, exec (.portDirection n.val (directionRaw d)) s =
      .next { s with
        ctrl := .idle
        env := s.env.afterDraw.afterDraw
        target :=
          { s.target with
            cfg := withBitSet s.target.cfg n (decide (d = .input))
            cmd := indexOf s.board.regIndex (.csr .configuration) }
        bus := s.bus ++
          [s.controllerTx (.read (.csr .configuration)) (.data s.target.cfg) false,
           s.controllerTx
             (.write .configuration (withBitSet s.target.cfg n (decide (d = .input)))) .done true]
        returned := some (.operation (.ok .unit)) })

/-- R240, R244: RESET that succeeds with no other agent leaves 0xFF, 0x00, 0xFF, the command pointer at
the index of its last write (0x03 under the default REG_INDEX, log 1), and its three writes in the log,
whatever the registers held. -/
def Obligations.ResetCompletes : Prop :=
  ∀ s : State, s.Ready → s.board.exclusive = true → s.Succeeds 0 → s.Succeeds 1 → s.Succeeds 2 →
    (s.board.regIndex = defaultIndex → indexOf s.board.regIndex (.csr .configuration) = 0x03#8) ∧
    exec .reset s =
      .next { s with
        ctrl := .idle
        env := s.env.afterDraw.afterDraw.afterDraw
        target :=
          { out := 0xFF#8
            pol := 0x00#8
            cfg := 0xFF#8
            cmd := indexOf s.board.regIndex (.csr .configuration) }
        bus := s.bus ++
          [s.controllerTx (.write .output 0xFF#8) .done true,
           s.controllerTx (.write .polarity 0x00#8) .done true,
           s.controllerTx (.write .configuration 0xFF#8) .done true]
        returned := some (.operation (.ok .unit)) }

/-! ### Operations that fail, or interleave -/

/-- R242: the three ways a RESET with no other agent can fail, with what each leaves. -/
def Obligations.PartialReset : Prop :=
  ∀ s : State, s.Ready → s.board.exclusive = true →
    (s.Fails 0 → ∃ t, exec .reset s = .next t ∧
      t.returned = some (.operation (.err .transportFailure)) ∧
      t.target.out = (if (s.env.drawAt 0).applied then 0xFF#8 else s.target.out) ∧
      t.target.pol = s.target.pol ∧ t.target.cfg = s.target.cfg) ∧
    (s.Succeeds 0 → s.Fails 1 → ∃ t, exec .reset s = .next t ∧
      t.returned = some (.operation (.err .transportFailure)) ∧
      t.target.out = 0xFF#8 ∧
      t.target.pol = (if (s.env.drawAt 1).applied then 0x00#8 else s.target.pol) ∧
      t.target.cfg = s.target.cfg) ∧
    (s.Succeeds 0 → s.Succeeds 1 → s.Fails 2 → ∃ t, exec .reset s = .next t ∧
      t.returned = some (.operation (.err .transportFailure)) ∧
      t.target.out = 0xFF#8 ∧ t.target.pol = 0x00#8 ∧
      t.target.cfg = (if (s.env.drawAt 2).applied then 0xFF#8 else s.target.cfg))

/-- R177: over two steps of the machine, a byte written to OUT, POL or CFG is read back. -/
def Obligations.SetThenGetRoundTrip : Prop :=
  ∀ (s : State) (h : Handle) (c : Csr) (v : Byte) (rest : List Input),
    s.ctrl = .idle → s.board.exclusive = true → validate s.board.busOpen (some h) = true →
    h.addr = s.board.targetAddr → s.Succeeds 0 → s.Succeeds 1 →
    s.inbox = .call (some h) (.setRegister (csrCode c) v) ::
      .call (some h) (.getRegister (csrCode c)) :: rest →
    ∃ t u, step s = .next t ∧ step t = .next u ∧
      u.returned = some (.operation (.ok (.byte v)))

/-- R212: with no other agent and no failure, a port operation sets its bit and leaves the other seven. -/
def Obligations.PortOperationsTouchOneBit : Prop :=
  ∀ (s : State) (n : Port), s.Ready → s.board.exclusive = true → s.Succeeds 0 → s.Succeeds 1 →
    (∀ l, ∃ t, exec (.portWrite n.val (levelRaw l)) s = .next t ∧
      ∀ k : Port, t.target.out.getLsbD k.val =
        if k = n then decide (l = .high) else s.target.out.getLsbD k.val) ∧
    (∀ q, ∃ t, exec (.portPolarity n.val (polarityRaw q)) s = .next t ∧
      ∀ k : Port, t.target.pol.getLsbD k.val =
        if k = n then decide (q = .inverted) else s.target.pol.getLsbD k.val) ∧
    (∀ d, ∃ t, exec (.portDirection n.val (directionRaw d)) s = .next t ∧
      ∀ k : Port, t.target.cfg.getLsbD k.val =
        if k = n then decide (d = .input) else s.target.cfg.getLsbD k.val)

/-- R405, R213: whatever the other agents write between the two transactions, a port operation that
returns Ok leaves the byte computed from what it READ: their writes to the register are lost. -/
def Obligations.LostUpdate : Prop :=
  ∀ (s t : State) (n : Port), t.returned = some (.operation (.ok .unit)) →
    (∀ l, exec (.portWrite n.val (levelRaw l)) s = .next t →
      t.target.out = withBitSet s.target.out n (decide (l = .high))) ∧
    (∀ q, exec (.portPolarity n.val (polarityRaw q)) s = .next t →
      t.target.pol = withBitSet s.target.pol n (decide (q = .inverted))) ∧
    (∀ d, exec (.portDirection n.val (directionRaw d)) s = .next t →
      t.target.cfg = withBitSet s.target.cfg n (decide (d = .input)))

/-- The model's choice (log 9: step runs a controller found Busy on; no step leaves one so), with the
kept byte as R43 and R405 have it: a controller found busy between the read and the write of a port
operation writes the byte computed from the one it keeps, not from what the register holds now. -/
def Obligations.ResumedWriteUsesKeptByte : Prop :=
  ∀ (s : State) (n : Port) (b : Byte), s.Ready → s.board.exclusive = true → s.Succeeds 0 →
    (∀ l, s.ctrl = .busy (.portWrite n.val (levelRaw l)) 1 (some b) →
      ∃ t, step s = .next t ∧ t.ctrl = .idle ∧ t.returned = some (.operation (.ok .unit)) ∧
        t.target = { s.target with
          out := withBitSet b n (decide (l = .high)), cmd := indexOf s.board.regIndex (.csr .output) }) ∧
    (∀ q, s.ctrl = .busy (.portPolarity n.val (polarityRaw q)) 1 (some b) →
      ∃ t, step s = .next t ∧ t.ctrl = .idle ∧ t.returned = some (.operation (.ok .unit)) ∧
        t.target = { s.target with
          pol := withBitSet b n (decide (q = .inverted)),
          cmd := indexOf s.board.regIndex (.csr .polarity) }) ∧
    (∀ d, s.ctrl = .busy (.portDirection n.val (directionRaw d)) 1 (some b) →
      ∃ t, step s = .next t ∧ t.ctrl = .idle ∧ t.returned = some (.operation (.ok .unit)) ∧
        t.target = { s.target with
          cfg := withBitSet b n (decide (d = .input)),
          cmd := indexOf s.board.regIndex (.csr .configuration) })

/-- R43, R206, R240: a call is the run of its operation from `Busy(op, 0, none)`. Running a controller
found Busy on is the model's choice (log 9). -/
def Obligations.CallStartsBusy : Prop :=
  ∀ (i : Instr) (op : Op) (s t : State), opOf i = some op → exec i s = .next t →
    step { s with ctrl := .busy op 0 none } = .next (environmentTurn t)

/-- R43, R172, R301: a controller found Busy, about to check its operands or to issue a transaction,
raises InvalidArgument when an operand of its operation fails its check or its handle is invalid: it
emits nothing and goes to Idle. Running a controller found Busy on is the model's choice (log 9). -/
def Obligations.BusyControllerChecks : Prop :=
  ∀ (i : Instr) (op : Op) (k : Nat) (rd : Option Byte) (s : State), opOf i = some op →
    s.ctrl = .busy op k rd →
    (i.wellFormed = false ∧ k = 0 ∨
      validate s.board.busOpen s.handle = false ∧ (k = 0 ∨ ∃ acc, op.next k rd = .emit acc)) →
    step s = .next (environmentTurn
      { s with ctrl := .idle, returned := some (.operation (.err .invalidArgument)) })

/-- R302, R306: a failed transaction of the controller is the operation's last and makes it return
TransportFailure; and TransportFailure is returned only after one. -/
def Obligations.FirstFailureEndsOperation : Prop :=
  ∀ (i : Instr) (s t : State), i.isComposite = true → exec i s = .next t →
    ∃ evs, t.bus = s.bus ++ evs ∧
      (∀ before e after, evs = before ++ e :: after → e.byController = true → e.failed = true →
        after = [] ∧ t.returned = some (.operation (.err .transportFailure))) ∧
      (t.returned = some (.operation (.err .transportFailure)) →
        ∃ before e, evs = before ++ [e] ∧ e.byController = true ∧ e.failed = true)

/-- R111, R411 (C3): how many transactions an operation makes: none when its arguments are invalid, its
row's number when it returns Ok, never more. -/
def Obligations.TransactionCounts : Prop :=
  ∀ (i : Instr) (s t : State), i.isComposite = true → exec i s = .next t →
    ∃ evs, t.bus = s.bus ++ evs ∧
      (evs.filter Event.byController).length ≤ transactionsOf i ∧
      (∀ v, t.returned = some (.operation (.ok v)) →
        (evs.filter Event.byController).length = transactionsOf i) ∧
      (t.returned = some (.operation (.err .invalidArgument)) → evs = [])

/-- R207: on no path does PORT_READ emit a write or change a register. -/
def Obligations.PortReadNeverWrites : Prop :=
  ∀ (s t : State) (p : Int), exec (.portRead p) s = .next t →
    (∀ c, t.target.reg c = s.target.reg c) ∧
    ∃ evs, t.bus = s.bus ++ evs ∧ evs.length ≤ 1 ∧
      ∀ e ∈ evs, e.access? = some (.read .input)

/-- R241, R243: on every path the controller's transactions of a RESET are a beginning of WR.OUT 0xFF,
WR.POL 0x00, WR.CFG 0xFF, in that order; none names IN. -/
def Obligations.ResetWritesInOrder : Prop :=
  ∀ s t : State, exec .reset s = .next t →
    ∃ evs, t.bus = s.bus ++ evs ∧
      (evs.filter Event.byController).filterMap Event.access? <+:
        [.write .output 0xFF#8, .write .polarity 0x00#8, .write .configuration 0xFF#8]

/-! ### Frames -/

/-- R17, R46, R300, R310: every operation, in every state, answers a next state with a result and the
controller idle; the handle, the inputs and the parameters are untouched. -/
def Obligations.OperationsReturn : Prop :=
  ∀ (i : Instr) (s : State), i.isComposite = true →
    ∃ t r, exec i s = .next t ∧ t.ctrl = .idle ∧ t.returned = some (.operation r) ∧
      t.handle = s.handle ∧ t.inbox = s.inbox ∧ t.board = s.board ∧ s.bus <+: t.bus

/-- R49, R77, R78: an instruction leaves every writable register its rule does not let it write, whether
it succeeds or fails; for the instructions of more than one transaction this needs EXCLUSIVE. -/
def Obligations.OtherRegistersUnchanged : Prop :=
  ∀ (i : Instr) (s t : State) (c : Csr),
    (s.board.exclusive = true ∨ transactionsOf i ≤ 1) → exec i s = .next t → c ∉ mayWrite i →
    t.target.reg c = s.target.reg c

/-- R38 (the specification's inference, log 27), R409: a successful PORT_DIRECTION to output makes the
chip drive the port at the current OUT bit, and leaves what it drives on every other port. -/
def Obligations.DirectionOutputDrivesLatch : Prop :=
  ∀ (s : State) (n : Port), s.Ready → s.board.exclusive = true → s.Succeeds 0 → s.Succeeds 1 →
    ∃ t, exec (.portDirection n.val (directionRaw .output)) s = .next t ∧
      t.target.drives n = some (if s.target.out.getLsbD n.val then .high else .low) ∧
      ∀ k : Port, k ≠ n → t.target.drives k = s.target.drives k

/-! ### The machine -/

/-- R13, D5, D9, D14, R11: the parameters at reset, where the specification gives a default. The command
bytes are the specification's general knowledge (log 1). -/
def Obligations.ParameterDefaults : Prop :=
  State.reset.board.inputModel = .free ∧ State.reset.board.exclusive = false ∧
  State.reset.board.busOpen = .descriptor ∧
  State.reset.board.regIndex =
    { input := 0x00#8, output := 0x01#8, polarity := 0x02#8, configuration := 0x03#8 }

/-- R48, R400, R401: what reset leaves, where the specification gives a value. -/
def Obligations.PowerOnState : Prop :=
  State.reset.target.out = 0xFF#8 ∧ State.reset.target.pol = 0x00#8 ∧
  State.reset.target.cfg = 0xFF#8 ∧ State.reset.ctrl = .idle

/-- R83, R110 (log 17): the next input is run: a frame that decodes to `i` and a call of `i` run `exec i`,
the call with its own handle and the fixed-address variant's with the bound address (D20); a word placed
by the host runs; then the other agents have their turn. -/
def Obligations.StepRunsInstruction : Prop :=
  ∀ (s : State) (i : Instr) (rest : List Input),
    let run := fun u : State =>
      match exec i u with
      | .next t => Host.Outcome.next (environmentTurn t)
      | .fault f => .fault f
      | .refused r => .refused r
    (∀ bs, s.ctrl = .idle → s.inbox = .frame bs :: rest →
      decode s.board.regIndex bs = .ok i →
      step s = run { s with inbox := rest }) ∧
    (∀ h, s.ctrl = .idle → s.inbox = .call h i :: rest →
      step s = run { s with inbox := rest, handle := h }) ∧
    (∀ b, s.ctrl = .idle → s.inbox = .fixedCall b i :: rest →
      step s = run { s with
        inbox := rest, handle := some { bus := b, addr := s.board.fixedAddr } }) ∧
    (∀ nbits w, decode s.board.regIndex (tableBytes nbits w) = .ok i →
      step (s.withFetchWord nbits w) = run { s with ctrl := .idle }) ∧
    (∀ nbits w, s.board.regIndex = defaultIndex → decodeTableWord nbits w = some i →
      step (s.withFetchWord nbits w) = run { s with ctrl := .idle })

/-- R401: no operation starts on its own. That a step with nothing in the inbox is exactly one turn of the
other agents (nothing at all with EXCLUSIVE) is the model's choice (log 4, log 17). -/
def Obligations.IdleStep : Prop :=
  ∀ s : State, s.ctrl = .idle → s.inbox = [] →
    step s = .next (environmentTurn s) ∧ (s.board.exclusive = true → step s = .next s)

/-- R316, R48 (D15, log 20): a power cycle between operations restores the power-on registers and leaves
the controller, the handle and the parameters. -/
def Obligations.PowerCycleRestoresDefaults : Prop :=
  ∀ (s : State) (rest : List Input), s.ctrl = .idle → s.inbox = .powerCycle :: rest →
    ∃ u, step s = .next (environmentTurn u) ∧
      u.target.out = 0xFF#8 ∧ u.target.pol = 0x00#8 ∧ u.target.cfg = 0xFF#8 ∧
      u.ctrl = .idle ∧ u.handle = s.handle ∧ u.board = s.board ∧ u.inbox = rest ∧
      u.bus = s.bus ++ [.powerCycle]

/-- R85 (D14, log 4): the other agents' turn: nothing with EXCLUSIVE; otherwise their accesses, each once,
in order, at the target's address. -/
def Obligations.EnvironmentTurnIssuesItsAccesses : Prop :=
  ∀ s : State,
    (s.board.exclusive = true → environmentTurn s = s) ∧
    (s.board.exclusive = false →
      ∃ txs : List Transaction, (environmentTurn s).bus = s.bus ++ txs.map .transaction ∧
        txs.map Transaction.request = (s.env.turnAt 0).map .access ∧
        ∀ t ∈ txs, t.agent = .environment ∧ t.slave = s.board.targetAddr)

/-- A step never changes the parameters (R13), always ends with the controller idle, and from an idle
controller never faults. An operation ends in Idle by R43 and R300; that one step runs a whole operation,
so that every step ends idle, is the model's choice (log 9). -/
def Obligations.StepEndsIdle : Prop :=
  ∀ s : State,
    (∀ t, step s = .next t → t.board = s.board ∧ t.ctrl = .idle) ∧
    (s.ctrl = .idle → ∀ f, step s ≠ .fault f)

/-- R84: a step keeps this: every writable register holds the byte of the latest write in the global order
that reached it, or the power-on default. -/
def Obligations.RegistersMatchBusKept : Prop :=
  ∀ s t : State, RegistersMatchBus s → step s = .next t → RegistersMatchBus t

/-- R84: a step keeps this: every read of a writable register in the global order returned the byte of the
latest earlier write that reached it, or the power-on default. -/
def Obligations.ReadsMatchBusKept : Prop :=
  ∀ s t : State, RegistersMatchBus s → ReadsMatchBus s → step s = .next t → ReadsMatchBus t

/-- R70, R80, R85: a step keeps this: the controller addresses only [0x38, 0x3F] and emits only the
target's accesses, and the other agents only theirs. -/
def Obligations.TrafficLegalKept : Prop :=
  ∀ s t : State, ControllerTrafficLegal s → EnvironmentTrafficLegal s → step s = .next t →
    ControllerTrafficLegal t ∧ EnvironmentTrafficLegal t

/-- R84, R13: the invariants hold at reset. The addresses at reset are the model's free values (log 2, 21). -/
def Obligations.InvariantsAtReset : Prop :=
  RegistersMatchBus State.reset ∧ ReadsMatchBus State.reset ∧
  ControllerTrafficLegal State.reset ∧ EnvironmentTrafficLegal State.reset ∧ BoardLegal State.reset

/-- R41 (the specification's inference, log 7): no step reveals the command pointer: two states that
differ in it alone give outcomes that differ in it alone. -/
def Obligations.CommandPointerUnobservable : Prop :=
  ∀ (s : State) (c : Byte), forgetCmd (step (s.withCmd c)) = forgetCmd (step s)
end

