-- ==== Sys2Proof/Laws/State.lean ====
section
/-! SUPPORT. What each named update of the state does to each field: one lemma a field. -/

namespace Sys2Proof.Machine

@[simp] theorem complete_target (r : Result) (s : State) :
    (s.complete r).target = s.target := rfl

@[simp] theorem complete_ctrl (r : Result) (s : State) :
    (s.complete r).ctrl = .idle := rfl

@[simp] theorem complete_env (r : Result) (s : State) :
    (s.complete r).env = s.env := rfl

@[simp] theorem complete_handle (r : Result) (s : State) :
    (s.complete r).handle = s.handle := rfl

@[simp] theorem complete_returned (r : Result) (s : State) :
    (s.complete r).returned = some (.operation r) := rfl

@[simp] theorem complete_inbox (r : Result) (s : State) :
    (s.complete r).inbox = s.inbox := rfl

@[simp] theorem complete_bus (r : Result) (s : State) :
    (s.complete r).bus = s.bus := rfl

@[simp] theorem complete_board (r : Result) (s : State) :
    (s.complete r).board = s.board := rfl

@[simp] theorem answered_target (a : Answer) (s : State) :
    (s.answered a).target = s.target := rfl

@[simp] theorem answered_ctrl (a : Answer) (s : State) :
    (s.answered a).ctrl = s.ctrl := rfl

@[simp] theorem answered_env (a : Answer) (s : State) :
    (s.answered a).env = s.env := rfl

@[simp] theorem answered_handle (a : Answer) (s : State) :
    (s.answered a).handle = s.handle := rfl

@[simp] theorem answered_returned (a : Answer) (s : State) :
    (s.answered a).returned = some (.transaction a) := rfl

@[simp] theorem answered_inbox (a : Answer) (s : State) :
    (s.answered a).inbox = s.inbox := rfl

@[simp] theorem answered_bus (a : Answer) (s : State) :
    (s.answered a).bus = s.bus := rfl

@[simp] theorem answered_board (a : Answer) (s : State) :
    (s.answered a).board = s.board := rfl

@[simp] theorem record_target (t : Transaction) (s : State) :
    (s.record t).target = s.target := rfl

@[simp] theorem record_ctrl (t : Transaction) (s : State) :
    (s.record t).ctrl = s.ctrl := rfl

@[simp] theorem record_env (t : Transaction) (s : State) :
    (s.record t).env = s.env := rfl

@[simp] theorem record_handle (t : Transaction) (s : State) :
    (s.record t).handle = s.handle := rfl

@[simp] theorem record_returned (t : Transaction) (s : State) :
    (s.record t).returned = s.returned := rfl

@[simp] theorem record_inbox (t : Transaction) (s : State) :
    (s.record t).inbox = s.inbox := rfl

@[simp] theorem record_bus (t : Transaction) (s : State) :
    (s.record t).bus = s.bus ++ [.transaction t] := rfl

@[simp] theorem record_board (t : Transaction) (s : State) :
    (s.record t).board = s.board := rfl

@[simp] theorem unanswered_target (ag : Agent) (a : SlaveAddr) (rq : Request) (s : State) :
    (unanswered ag a rq s).target = s.target := rfl

@[simp] theorem unanswered_ctrl (ag : Agent) (a : SlaveAddr) (rq : Request) (s : State) :
    (unanswered ag a rq s).ctrl = s.ctrl := rfl

@[simp] theorem unanswered_env (ag : Agent) (a : SlaveAddr) (rq : Request) (s : State) :
    (unanswered ag a rq s).env = s.env := rfl

@[simp] theorem unanswered_handle (ag : Agent) (a : SlaveAddr) (rq : Request) (s : State) :
    (unanswered ag a rq s).handle = s.handle := rfl

@[simp] theorem unanswered_returned (ag : Agent) (a : SlaveAddr) (rq : Request) (s : State) :
    (unanswered ag a rq s).returned = s.returned := rfl

@[simp] theorem unanswered_inbox (ag : Agent) (a : SlaveAddr) (rq : Request) (s : State) :
    (unanswered ag a rq s).inbox = s.inbox := rfl

@[simp] theorem unanswered_bus (ag : Agent) (a : SlaveAddr) (rq : Request) (s : State) :
    (unanswered ag a rq s).bus = s.bus ++ [.transaction ⟨ag, a, rq, .fail, false⟩] := rfl

@[simp] theorem unanswered_board (ag : Agent) (a : SlaveAddr) (rq : Request) (s : State) :
    (unanswered ag a rq s).board = s.board := rfl

@[simp] theorem raise_target (e : ErrorKind) (s : State) :
    (raise e s).target = s.target := rfl

@[simp] theorem raise_ctrl (e : ErrorKind) (s : State) :
    (raise e s).ctrl = .idle := rfl

@[simp] theorem raise_env (e : ErrorKind) (s : State) :
    (raise e s).env = s.env := rfl

@[simp] theorem raise_handle (e : ErrorKind) (s : State) :
    (raise e s).handle = s.handle := rfl

@[simp] theorem raise_returned (e : ErrorKind) (s : State) :
    (raise e s).returned = some (.operation (.err e)) := rfl

@[simp] theorem raise_inbox (e : ErrorKind) (s : State) :
    (raise e s).inbox = s.inbox := rfl

@[simp] theorem raise_bus (e : ErrorKind) (s : State) :
    (raise e s).bus = s.bus := rfl

@[simp] theorem raise_board (e : ErrorKind) (s : State) :
    (raise e s).board = s.board := rfl

@[simp] theorem returnOk_target (v : Value) (s : State) :
    (returnOk v s).target = s.target := rfl

@[simp] theorem returnOk_ctrl (v : Value) (s : State) :
    (returnOk v s).ctrl = .idle := rfl

@[simp] theorem returnOk_env (v : Value) (s : State) :
    (returnOk v s).env = s.env := rfl

@[simp] theorem returnOk_handle (v : Value) (s : State) :
    (returnOk v s).handle = s.handle := rfl

@[simp] theorem returnOk_returned (v : Value) (s : State) :
    (returnOk v s).returned = some (.operation (.ok v)) := rfl

@[simp] theorem returnOk_inbox (v : Value) (s : State) :
    (returnOk v s).inbox = s.inbox := rfl

@[simp] theorem returnOk_bus (v : Value) (s : State) :
    (returnOk v s).bus = s.bus := rfl

@[simp] theorem returnOk_board (v : Value) (s : State) :
    (returnOk v s).board = s.board := rfl

@[simp] theorem powerCycle_target  (s : State) :
    (powerCycle s).target = Target.powerOn (s.env.drawAt 0).cmd := rfl

@[simp] theorem powerCycle_ctrl  (s : State) :
    (powerCycle s).ctrl = s.ctrl := rfl

@[simp] theorem powerCycle_env  (s : State) :
    (powerCycle s).env = s.env.afterDraw := rfl

@[simp] theorem powerCycle_handle  (s : State) :
    (powerCycle s).handle = s.handle := rfl

@[simp] theorem powerCycle_returned  (s : State) :
    (powerCycle s).returned = s.returned := rfl

@[simp] theorem powerCycle_inbox  (s : State) :
    (powerCycle s).inbox = s.inbox := rfl

@[simp] theorem powerCycle_bus  (s : State) :
    (powerCycle s).bus = s.bus ++ [.powerCycle] := rfl

@[simp] theorem powerCycle_board  (s : State) :
    (powerCycle s).board = s.board := rfl

@[simp] theorem point_out (c : Byte) (t : Target) : (t.point c).out = t.out := rfl

@[simp] theorem point_pol (c : Byte) (t : Target) : (t.point c).pol = t.pol := rfl

@[simp] theorem point_cfg (c : Byte) (t : Target) : (t.point c).cfg = t.cfg := rfl

@[simp] theorem point_cmd (c : Byte) (t : Target) : (t.point c).cmd = c := rfl

@[simp] theorem afterDraw_pins (e : Env) : e.afterDraw.pins = (e.drawAt 0).pins := rfl

@[simp] theorem afterDraw_draws (e : Env) : e.afterDraw.draws = e.draws.tail := rfl

@[simp] theorem afterDraw_drawn (e : Env) : e.afterDraw.drawn = e.drawn + 1 := rfl

@[simp] theorem afterDraw_turns (e : Env) : e.afterDraw.turns = e.turns := rfl

@[simp] theorem afterDraw_turned (e : Env) : e.afterDraw.turned = e.turned := rfl

@[simp] theorem afterTurn_pins (e : Env) : e.afterTurn.pins = e.pins := rfl

@[simp] theorem afterTurn_draws (e : Env) : e.afterTurn.draws = e.draws := rfl

@[simp] theorem afterTurn_drawn (e : Env) : e.afterTurn.drawn = e.drawn := rfl

@[simp] theorem afterTurn_turns (e : Env) : e.afterTurn.turns = e.turns.tail := rfl

@[simp] theorem afterTurn_turned (e : Env) : e.afterTurn.turned = e.turned + 1 := rfl

end Sys2Proof.Machine
end

