-- ==== Sys2Proof/Laws/Ops.lean ====
section
/-! SUPPORT. What the shared operations can do, said once: the register file, the draws, one bus
transaction, and the other agents' turn. Later proofs cite these instead of unfolding the operations. -/

namespace Sys2Proof.Machine

/-! ### The register file -/

@[simp] theorem point_reg (t : Target) (cmd : Byte) (c : Csr) : (t.point cmd).reg c = t.reg c := by
  cases c <;> rfl

@[simp] theorem write_reg_same (t : Target) (c : Csr) (v : Byte) : (t.write c v).reg c = v := by
  cases c <;> rfl

theorem write_reg_other (t : Target) {c c' : Csr} (v : Byte) (h : c' ≠ c) :
    (t.write c v).reg c' = t.reg c' := by
  cases c <;> cases c' <;> first | rfl | exact absurd rfl h

theorem write_reg (t : Target) (c c' : Csr) (v : Byte) :
    (t.write c v).reg c' = if c = c' then v else t.reg c' := by
  by_cases h : c = c'
  · subst h; simp
  · simp [h, write_reg_other t v (fun e => h e.symm)]

@[simp] theorem write_cmd (t : Target) (c : Csr) (v : Byte) : (t.write c v).cmd = t.cmd := by
  cases c <;> rfl

theorem point_write (t : Target) (cmd : Byte) (c : Csr) (v : Byte) :
    (t.point cmd).write c v = (t.write c v).point cmd := by
  cases c <;> rfl

@[simp] theorem powerOn_reg (cmd : Byte) (c : Csr) :
    (Target.powerOn cmd).reg c = Config.default c := by
  cases c <;> rfl

/-! ### Draws and turns -/

@[simp] theorem drawAt_afterDraw (e : Env) (k : Nat) : e.afterDraw.drawAt k = e.drawAt (k + 1) := by
  rcases e with ⟨pins, draws, drawn, turns, turned⟩
  cases draws <;> simp [Env.drawAt, Env.afterDraw, Nat.add_right_comm, ← Nat.add_assoc]

@[simp] theorem drawAt_afterTurn (e : Env) (k : Nat) : e.afterTurn.drawAt k = e.drawAt k := rfl

@[simp] theorem turnAt_afterDraw (e : Env) (k : Nat) : e.afterDraw.turnAt k = e.turnAt k := rfl

@[simp] theorem turnAt_afterTurn (e : Env) (k : Nat) : e.afterTurn.turnAt k = e.turnAt (k + 1) := by
  rcases e with ⟨pins, draws, drawn, turns, turned⟩
  cases turns <;> simp [Env.turnAt, Env.afterTurn, Nat.add_right_comm, ← Nat.add_assoc]

/-! ### One transaction -/

/-- At another address a transaction fails and only the log grows (R143). -/
theorem transact_elsewhere {ag : Agent} {a : SlaveAddr} {acc : Access} {s : State}
    (h : a ≠ s.board.targetAddr) :
    transact ag a acc s = (unanswered ag a (.access acc) s, .fail) := by
  cases acc <;> simp [transact, busRead, busWrite, h]

/-- A read that the target answers (R140). -/
theorem busRead_ok {ag : Agent} {a : SlaveAddr} {r : Reg} {s : State}
    (h : a = s.board.targetAddr) (hd : (s.env.drawAt 0).fail = false) :
    busRead ag a r s =
      (({ s with env := s.env.afterDraw, target := s.target.point (indexOf s.board.regIndex r) } : State).record
          ⟨ag, a, .access (.read r),
            .data (readValue r (s.env.drawAt 0) { s with env := s.env.afterDraw }), false⟩,
        .data (readValue r (s.env.drawAt 0) { s with env := s.env.afterDraw })) := by
  simp [busRead, h, hd]

/-- A write that the target answers (R141). -/
theorem busWrite_ok {ag : Agent} {a : SlaveAddr} {c : Csr} {v : Byte} {s : State}
    (h : a = s.board.targetAddr) (hd : (s.env.drawAt 0).fail = false) :
    busWrite ag a c v s =
      (({ s with
            env := s.env.afterDraw
            target := (s.target.point (indexOf s.board.regIndex (.csr c))).write c v } : State).record
          ⟨ag, a, .access (.write c v), .done, true⟩,
        .done) := by
  simp [busWrite, h, hd]

/-- A read that fails on its way (R142): no register changes. -/
theorem busRead_fails {ag : Agent} {a : SlaveAddr} {r : Reg} {s : State}
    (h : a = s.board.targetAddr) (hd : (s.env.drawAt 0).fail = true) :
    busRead ag a r s =
      (({ s with
            env := s.env.afterDraw
            target := s.target.point (s.env.drawAt 0).cmd } : State).record
          ⟨ag, a, .access (.read r), .fail, false⟩,
        .fail) := by
  simp [busRead, h, hd]

/-- A write that fails on its way (R142): its register is as before, or holds the byte. -/
theorem busWrite_fails {ag : Agent} {a : SlaveAddr} {c : Csr} {v : Byte} {s : State}
    (h : a = s.board.targetAddr) (hd : (s.env.drawAt 0).fail = true) :
    busWrite ag a c v s =
      (({ s with
            env := s.env.afterDraw
            target :=
              if (s.env.drawAt 0).applied then (s.target.point (s.env.drawAt 0).cmd).write c v
              else s.target.point (s.env.drawAt 0).cmd } : State).record
          ⟨ag, a, .access (.write c v), .fail, (s.env.drawAt 0).applied⟩,
        .fail) := by
  simp [busWrite, h, hd]

@[simp] theorem transact_read (ag : Agent) (a : SlaveAddr) (r : Reg) (s : State) :
    transact ag a (.read r) s = busRead ag a r s := rfl

@[simp] theorem transact_write (ag : Agent) (a : SlaveAddr) (c : Csr) (v : Byte) (s : State) :
    transact ag a (.write c v) s = busWrite ag a c v s := rfl

/-- Everything one transaction can do (R140 to R143): it is unanswered, it fails, or it succeeds. -/
theorem transact_cases (ag : Agent) (a : SlaveAddr) (acc : Access) (s : State) :
    (a ≠ s.board.targetAddr ∧ transact ag a acc s = (unanswered ag a (.access acc) s, .fail)) ∨
    (a = s.board.targetAddr ∧ ∃ tgt ans landed,
      transact ag a acc s =
        (({ s with env := s.env.afterDraw, target := tgt } : State).record
          ⟨ag, a, .access acc, ans, landed⟩, ans) ∧
      ((∃ r, acc = .read r ∧ landed = false ∧
          ((ans = .fail ∧ tgt = s.target.point (s.env.drawAt 0).cmd) ∨
           (ans = .data (readValue r (s.env.drawAt 0) { s with env := s.env.afterDraw }) ∧
            tgt = s.target.point (indexOf s.board.regIndex r)))) ∨
       (∃ c v, acc = .write c v ∧
          ((ans = .fail ∧
            ((landed = true ∧ tgt = (s.target.point (s.env.drawAt 0).cmd).write c v) ∨
             (landed = false ∧ tgt = s.target.point (s.env.drawAt 0).cmd))) ∨
           (ans = .done ∧ landed = true ∧
            tgt = (s.target.point (indexOf s.board.regIndex (.csr c))).write c v))))) := by
  by_cases h : a = s.board.targetAddr
  · refine .inr ⟨h, ?_⟩
    cases hd : (s.env.drawAt 0).fail <;> cases acc with
    | read r =>
      first
        | exact ⟨_, _, _, busRead_ok h hd, .inl ⟨r, rfl, rfl, .inr ⟨rfl, rfl⟩⟩⟩
        | exact ⟨_, _, _, busRead_fails h hd, .inl ⟨r, rfl, rfl, .inl ⟨rfl, rfl⟩⟩⟩
    | write c v =>
      first
        | exact ⟨_, _, _, busWrite_ok h hd, .inr ⟨c, v, rfl, .inr ⟨rfl, rfl, rfl⟩⟩⟩
        | refine ⟨_, _, _, busWrite_fails h hd, .inr ⟨c, v, rfl, .inl ⟨rfl, ?_⟩⟩⟩
          cases (s.env.drawAt 0).applied <;> simp
  · exact .inl ⟨h, transact_elsewhere h⟩

/-- A transaction leaves everything but the target, the environment and the log. -/
theorem transact_frame (ag : Agent) (a : SlaveAddr) (acc : Access) (s : State) :
    (transact ag a acc s).1.ctrl = s.ctrl ∧ (transact ag a acc s).1.handle = s.handle ∧
    (transact ag a acc s).1.returned = s.returned ∧ (transact ag a acc s).1.inbox = s.inbox ∧
    (transact ag a acc s).1.board = s.board := by
  obtain ⟨_, e⟩ | ⟨_, tgt, ans, landed, e, _⟩ := transact_cases ag a acc s <;> rw [e] <;> simp

/-- A transaction adds exactly one entry to the log, naming who issued it and what it asked for. -/
theorem transact_bus (ag : Agent) (a : SlaveAddr) (acc : Access) (s : State) :
    ∃ landed, (transact ag a acc s).1.bus =
      s.bus ++ [.transaction ⟨ag, a, .access acc, (transact ag a acc s).2, landed⟩] := by
  obtain ⟨_, e⟩ | ⟨_, tgt, ans, landed, e, _⟩ := transact_cases ag a acc s <;> rw [e]
  · exact ⟨false, rfl⟩
  · exact ⟨landed, rfl⟩

/-- A transaction leaves every register but the one it writes. -/
theorem transact_reg_other (ag : Agent) (a : SlaveAddr) (acc : Access) (s : State) (c : Csr)
    (h : ∀ v, acc ≠ .write c v) : (transact ag a acc s).1.target.reg c = s.target.reg c := by
  obtain ⟨_, e⟩ | ⟨_, tgt, ans, landed, e, hcase⟩ := transact_cases ag a acc s <;> rw [e]
  · rfl
  · have other : ∀ c' v, acc = .write c' v → c ≠ c' := by
      rintro c' v rfl rfl; exact h v rfl
    obtain ⟨r, rfl, -, ⟨-, rfl⟩ | ⟨-, rfl⟩⟩ | ⟨c', v, rfl, hw⟩ := hcase
    · simp
    · simp
    · obtain ⟨-, ⟨-, rfl⟩ | ⟨-, rfl⟩⟩ | ⟨-, -, rfl⟩ := hw <;>
        simp [write_reg_other _ _ (other _ _ rfl)]

/-- The answer tells a read from a write. -/
theorem transact_answer (ag : Agent) (a : SlaveAddr) (acc : Access) (s : State) :
    (transact ag a acc s).2 = .fail ∨
    (∃ r d, acc = .read r ∧ (transact ag a acc s).2 = .data d) ∨
    (∃ c v, acc = .write c v ∧ (transact ag a acc s).2 = .done) := by
  obtain ⟨_, e⟩ | ⟨_, tgt, ans, landed, e, hcase⟩ := transact_cases ag a acc s <;> rw [e]
  · exact .inl rfl
  · obtain ⟨r, rfl, -, ⟨rfl, -⟩ | ⟨rfl, -⟩⟩ | ⟨c, v, rfl, ⟨rfl, -⟩ | ⟨rfl, -⟩⟩ := hcase
    · exact .inl rfl
    · exact .inr (.inl ⟨r, _, rfl, rfl⟩)
    · exact .inl rfl
    · exact .inr (.inr ⟨c, v, rfl, rfl⟩)

/-- A transaction does not look at the controller state. -/
theorem transact_withCtrl (ag : Agent) (a : SlaveAddr) (acc : Access) (s : State) (c : Ctrl) :
    transact ag a acc { s with ctrl := c } =
      ({ (transact ag a acc s).1 with ctrl := c }, (transact ag a acc s).2) := by
  by_cases h : a = s.board.targetAddr
  · cases hd : (s.env.drawAt 0).fail <;> cases acc <;>
      simp [transact, busRead, busWrite, h, hd, State.record, readValue, inputValue]
  · cases acc <;> simp [transact, busRead, busWrite, h, unanswered, State.record]

/-! ### The other agents' turn -/

/-- With EXCLUSIVE the other agents do nothing (R85). -/
theorem environmentTurn_exclusive {s : State} (h : s.board.exclusive = true) :
    environmentTurn s = s := by
  simp [environmentTurn, h]

/-- A property that every transaction of another agent keeps holds after their turn. -/
theorem environmentTurn_keeps {P : State → Prop} {s : State}
    (hstart : P { s with env := s.env.afterTurn })
    (hacc : ∀ t acc, P t → P (transact .environment t.board.targetAddr acc t).1)
    (hs : P s) : P (environmentTurn s) := by
  unfold environmentTurn
  split
  · exact hs
  · generalize s.env.turnAt 0 = accs
    generalize ({ s with env := s.env.afterTurn } : State) = t at hstart ⊢
    induction accs generalizing t with
    | nil => exact hstart
    | cons acc accs ih => exact ih _ (hacc t acc hstart)

/-- The other agents change only the target, the environment and the log. -/
theorem environmentTurn_frame (s : State) :
    (environmentTurn s).ctrl = s.ctrl ∧ (environmentTurn s).handle = s.handle ∧
    (environmentTurn s).returned = s.returned ∧ (environmentTurn s).inbox = s.inbox ∧
    (environmentTurn s).board = s.board := by
  refine environmentTurn_keeps (P := fun t => t.ctrl = s.ctrl ∧ t.handle = s.handle ∧
    t.returned = s.returned ∧ t.inbox = s.inbox ∧ t.board = s.board) ⟨rfl, rfl, rfl, rfl, rfl⟩ ?_
    ⟨rfl, rfl, rfl, rfl, rfl⟩
  intro t acc ht
  obtain ⟨h1, h2, h3, h4, h5⟩ := transact_frame .environment t.board.targetAddr acc t
  rw [h1, h2, h3, h4, h5]
  exact ht

@[simp] theorem environmentTurn_ctrl (s : State) : (environmentTurn s).ctrl = s.ctrl :=
  (environmentTurn_frame s).1

@[simp] theorem environmentTurn_handle (s : State) : (environmentTurn s).handle = s.handle :=
  (environmentTurn_frame s).2.1

@[simp] theorem environmentTurn_returned (s : State) : (environmentTurn s).returned = s.returned :=
  (environmentTurn_frame s).2.2.1

@[simp] theorem environmentTurn_inbox (s : State) : (environmentTurn s).inbox = s.inbox :=
  (environmentTurn_frame s).2.2.2.1

@[simp] theorem environmentTurn_board (s : State) : (environmentTurn s).board = s.board :=
  (environmentTurn_frame s).2.2.2.2

/-- The other agents do not look at the controller state. -/
theorem environmentTurn_withCtrl (s : State) (c : Ctrl) :
    environmentTurn { s with ctrl := c } = { environmentTurn s with ctrl := c } := by
  unfold environmentTurn
  split
  · rfl
  · show List.foldl environmentAccess
        { ({ s with env := s.env.afterTurn } : State) with ctrl := c } (s.env.turnAt 0) = _
    generalize s.env.turnAt 0 = accs
    generalize ({ s with env := s.env.afterTurn } : State) = t
    induction accs generalizing t with
    | nil => rfl
    | cons acc accs ih =>
      simp only [List.foldl_cons]
      rw [← ih]
      simp only [environmentAccess, transact_withCtrl]

/-- The other agents only add to the log, and what they add is theirs. -/
theorem environmentTurn_bus (s : State) :
    ∃ evs, (environmentTurn s).bus = s.bus ++ evs ∧
      ∀ e ∈ evs, ∃ acc ans landed,
        e = .transaction ⟨.environment, s.board.targetAddr, .access acc, ans, landed⟩ := by
  have key : ∃ evs, (environmentTurn s).board = s.board ∧ (environmentTurn s).bus = s.bus ++ evs ∧
      ∀ e ∈ evs, ∃ acc ans landed,
        e = .transaction ⟨.environment, s.board.targetAddr, .access acc, ans, landed⟩ := by
    refine environmentTurn_keeps (P := fun t => ∃ evs, t.board = s.board ∧ t.bus = s.bus ++ evs ∧
      ∀ e ∈ evs, ∃ acc ans landed,
        e = .transaction ⟨.environment, s.board.targetAddr, .access acc, ans, landed⟩)
      ⟨[], rfl, by simp, by simp⟩ ?_ ⟨[], rfl, by simp, by simp⟩
    rintro t acc ⟨evs, hb, hbus, hevs⟩
    obtain ⟨landed, hadd⟩ := transact_bus .environment t.board.targetAddr acc t
    refine ⟨evs ++ [.transaction ⟨.environment, s.board.targetAddr, .access acc,
      (transact .environment t.board.targetAddr acc t).2, landed⟩], ?_, ?_, ?_⟩
    · rw [(transact_frame _ _ _ _).2.2.2.2, hb]
    · rw [hadd, hbus, List.append_assoc, hb]
    · intro e he
      rcases List.mem_append.1 he with he | he
      · exact hevs e he
      · exact ⟨_, _, _, List.mem_singleton.1 he⟩
  obtain ⟨evs, -, h⟩ := key
  exact ⟨evs, h⟩

end Sys2Proof.Machine
end

