-- ==== Sys2Proof/Laws/Controller.lean ====
section
/-! SUPPORT. What a run of an operation and a step can do, said once: the moves of `runOp`, the checks
of `callOp`, and the two inductions by which an invariant is kept (over a run, and over a step). -/

namespace Sys2Proof.Machine

/-! ### The handle -/

theorem slave_eq_some {s : State} {a : SlaveAddr} (h : s.slave = some a) :
    ∃ k, s.handle = some k ∧ validate s.board.busOpen (some k) = true ∧ k.addr = a := by
  unfold State.slave at h
  split at h
  · rename_i hok
    cases hh : s.handle with
    | none => rw [hh] at hok; cases hok
    | some k => exact ⟨k, rfl, hh ▸ hok, by simpa [hh] using h⟩
  · cases h

theorem slave_addrInRange {s : State} {a : SlaveAddr} (h : s.slave = some a) :
    addrInRange a = true := by
  obtain ⟨k, -, hok, rfl⟩ := slave_eq_some h
  simp only [validate, Bool.and_eq_true] at hok
  exact hok.2

theorem slave_invalid {s : State} (h : validate s.board.busOpen s.handle = false) :
    s.slave = none := by
  simp [State.slave, h]

theorem slave_valid {s : State} {k : Handle} (hk : s.handle = some k)
    (hv : validate s.board.busOpen (some k) = true) : s.slave = some k.addr := by
  simp [State.slave, hk, hv]

/-- A handle that passes and names the target. -/
theorem ready_slave {s : State} (h : s.Ready) : s.slave = some s.board.targetAddr := by
  obtain ⟨k, hk, hok, hadr⟩ := h
  rw [slave_valid hk hok, hadr]

/-- VALIDATE reads the handle and the bus predicate, nothing else. -/
theorem slave_congr {s t : State} (hh : t.handle = s.handle) (hb : t.board = s.board) :
    t.slave = s.slave := by
  simp only [State.slave, hh, hb]

@[simp] theorem slave_withCtrl (s : State) (c : Ctrl) : ({ s with ctrl := c } : State).slave = s.slave :=
  rfl

@[simp] theorem slave_environmentTurn (s : State) : (environmentTurn s).slave = s.slave :=
  slave_congr (environmentTurn_handle s) (environmentTurn_board s)

@[simp] theorem slave_transact (ag : Agent) (a : SlaveAddr) (acc : Access) (s : State) :
    (transact ag a acc s).1.slave = s.slave :=
  slave_congr (transact_frame ag a acc s).2.1 (transact_frame ag a acc s).2.2.2.2

/-! ### The moves of a run -/

theorem runOp_finish {n : Nat} {op : Op} {step : Nat} {rd : Option Byte} {v : Value}
    (s : State) (h : op.next step rd = .finish v) :
    runOp (n + 1) op step rd s = returnOk v s := by
  simp [runOp, h]

/-- An operand that fails its check (R301). -/
theorem runOp_reject {n : Nat} {op : Op} {step : Nat} {rd : Option Byte}
    (s : State) (h : op.next step rd = .reject) :
    runOp (n + 1) op step rd s = raise .invalidArgument s := by
  simp [runOp, h]

/-- A handle that fails its check (R172). -/
theorem runOp_invalid {n : Nat} {op : Op} {step : Nat} {rd : Option Byte} {acc : Access} {s : State}
    (h : op.next step rd = .emit acc) (hv : s.slave = none) :
    runOp (n + 1) op step rd s = raise .invalidArgument s := by
  simp [runOp, h, hv]

/-- A transaction that fails ends the operation (R306). -/
theorem runOp_fail {n : Nat} {a : SlaveAddr} {op : Op} {step : Nat} {rd : Option Byte} {acc : Access}
    {s t : State} (h : op.next step rd = .emit acc) (hv : s.slave = some a)
    (ht : transact .controller a acc (turnBefore step s) = (t, .fail)) :
    runOp (n + 1) op step rd s = raise .transportFailure t := by
  simp [runOp, h, hv, ht]

/-- A read that succeeds: the run goes on with its byte. -/
theorem runOp_data {n : Nat} {a : SlaveAddr} {op : Op} {step : Nat} {rd : Option Byte} {acc : Access}
    {s t : State} {d : Byte} (h : op.next step rd = .emit acc) (hv : s.slave = some a)
    (ht : transact .controller a acc (turnBefore step s) = (t, .data d)) :
    runOp (n + 1) op step rd s =
      runOp n op (step + 1) (some d) { t with ctrl := .busy op (step + 1) (some d) } := by
  simp [runOp, h, hv, ht]

/-- A write that succeeds: the run goes on. -/
theorem runOp_done {n : Nat} {a : SlaveAddr} {op : Op} {step : Nat} {rd : Option Byte} {acc : Access}
    {s t : State} (h : op.next step rd = .emit acc) (hv : s.slave = some a)
    (ht : transact .controller a acc (turnBefore step s) = (t, .done)) :
    runOp (n + 1) op step rd s =
      runOp n op (step + 1) rd { t with ctrl := .busy op (step + 1) rd } := by
  simp [runOp, h, hv, ht]

@[simp] theorem turnBefore_zero (s : State) : turnBefore 0 s = s := rfl

@[simp] theorem turnBefore_succ (k : Nat) (s : State) : turnBefore (k + 1) s = environmentTurn s := rfl

/-- A property that the parts of a run keep holds after the run. -/
theorem runOp_keeps {P : State → Prop}
    (hctrl : ∀ s c, P s → P { s with ctrl := c })
    (hdone : ∀ s r, P s → P (s.complete r))
    (hturn : ∀ s, P s → P (environmentTurn s))
    (htx : ∀ s a acc, addrInRange a = true → P s → P (transact .controller a acc s).1)
    (n : Nat) (op : Op) (step : Nat) (rd : Option Byte) (s : State) (hs : P s) :
    P (runOp n op step rd s) := by
  induction n generalizing step rd s with
  | zero => exact hs
  | succ n ih =>
    cases h : op.next step rd with
    | stuck => simpa [runOp, h] using hs
    | reject => rw [runOp_reject s h]; exact hdone _ _ hs
    | finish v => rw [runOp_finish s h]; exact hdone _ _ hs
    | emit acc =>
      cases hv : s.slave with
      | none => rw [runOp_invalid h hv]; exact hdone _ _ hs
      | some a =>
        have hb : P (turnBefore step s) := by
          cases step with
          | zero => exact hs
          | succ k => exact hturn s hs
        have ht := htx _ a acc (slave_addrInRange hv) hb
        rcases e : transact .controller a acc (turnBefore step s) with ⟨t, ans⟩
        rw [e] at ht
        cases ans with
        | fail => rw [runOp_fail h hv e]; exact hdone _ _ ht
        | data d => rw [runOp_data h hv e]; exact ih _ _ _ (hctrl _ _ ht)
        | done => rw [runOp_done h hv e]; exact ih _ _ _ (hctrl _ _ ht)

/-- A property that the parts of an operation keep holds after a call. -/
theorem callOp_keeps {P : State → Prop}
    (hctrl : ∀ s c, P s → P { s with ctrl := c })
    (hdone : ∀ s r, P s → P (s.complete r))
    (hturn : ∀ s, P s → P (environmentTurn s))
    (htx : ∀ s a acc, addrInRange a = true → P s → P (transact .controller a acc s).1)
    (op : Op) (s : State) (hs : P s) : P (callOp op s) :=
  runOp_keeps hctrl hdone hturn htx _ _ _ _ _ (hctrl _ _ hs)

/-! ### The operands -/

@[simp] theorem regOfCode_regCode (r : Reg) : regOfCode (regCode r) = some r := by
  rcases r with _ | c
  · rfl
  · cases c <;> rfl

@[simp] theorem csrOfCode_csrCode (c : Csr) : csrOfCode (csrCode c) = some c := by
  cases c <;> rfl

@[simp] theorem portOf_val (n : Port) : portOf (n.val : Int) = some n := by
  simp [portOf]

@[simp] theorem levelOfRaw_levelRaw (l : Level) : levelOfRaw (levelRaw l) = some l := by
  cases l <;> rfl

@[simp] theorem polarityOfRaw_polarityRaw (q : Polarity) :
    polarityOfRaw (polarityRaw q) = some q := by
  cases q <;> rfl

@[simp] theorem directionOfRaw_directionRaw (d : Direction) :
    directionOfRaw (directionRaw d) = some d := by
  cases d <;> rfl

theorem regOfCode_large {r : Nat} (h : 3 < r) : regOfCode r = none := by
  unfold regOfCode
  rw [if_neg (by omega), if_neg (by omega), if_neg (by omega), if_neg (by omega)]

theorem csrOfCode_large {r : Nat} (h : 3 < r) : csrOfCode r = none := by
  simp [csrOfCode, regOfCode_large h]

@[simp] theorem csrOfCode_input : csrOfCode (regCode .input) = none := rfl

theorem portOf_outside {p : Int} (h : p < 0 ∨ 7 < p) : portOf p = none := by
  simp only [portOf]
  split
  · rw [dif_neg (by omega)]
  · rfl

theorem levelBit_eq (l : Level) : levelBit l = decide (l = .high) := by cases l <;> rfl

theorem polarityBit_eq (q : Polarity) : polarityBit q = decide (q = .inverted) := by cases q <;> rfl

theorem directionBit_eq (d : Direction) : directionBit d = decide (d = .input) := by cases d <;> rfl

theorem levelOfRaw_other {x : Int} (h0 : x ≠ 0) (h1 : x ≠ 1) : levelOfRaw x = none := by
  simp [levelOfRaw, h0, h1]

theorem polarityOfRaw_other {x : Int} (h0 : x ≠ 0) (h1 : x ≠ 1) : polarityOfRaw x = none := by
  simp [polarityOfRaw, h0, h1]

theorem directionOfRaw_other {x : Int} (h0 : x ≠ 0) (h1 : x ≠ 1) : directionOfRaw x = none := by
  simp [directionOfRaw, h0, h1]

@[simp] theorem portAndBit_none_left {p : Int} (x : Option Bool) (h : portOf p = none) :
    portAndBit p x = none := by
  simp [portAndBit, h]

@[simp] theorem portAndBit_none_right (p : Int) : portAndBit p none = none := by
  cases h : portOf p <;> simp [portAndBit, h]

@[simp] theorem portAndBit_some (n : Port) (x : Bool) : portAndBit n.val (some x) = some (n, x) := by
  simp [portAndBit]

/-! ### What each operation does next, with operands that pass -/

@[simp] theorem next_getRegister (q : Reg) (step : Nat) (rd : Option Byte) :
    (Op.getRegister (regCode q)).next step rd = nextGet q step rd := by
  simp [Op.next]

@[simp] theorem next_setRegister (c : Csr) (v : Byte) (step : Nat) (rd : Option Byte) :
    (Op.setRegister (csrCode c) v).next step rd = nextSet c v step := by
  simp [Op.next]

@[simp] theorem next_resetRegister (c : Csr) (step : Nat) (rd : Option Byte) :
    (Op.resetRegister (csrCode c)).next step rd = nextSet c (Config.default c) step := by
  simp [Op.next]

@[simp] theorem next_portRead (n : Port) (step : Nat) (rd : Option Byte) :
    (Op.portRead n.val).next step rd = nextPortRead n step rd := by
  simp [Op.next]

@[simp] theorem next_portWrite (n : Port) (l : Level) (step : Nat) (rd : Option Byte) :
    (Op.portWrite n.val (levelRaw l)).next step rd =
      nextRmw .output n (decide (l = .high)) step rd := by
  simp [Op.next, nextPort, levelBit_eq]

@[simp] theorem next_portPolarity (n : Port) (q : Polarity) (step : Nat) (rd : Option Byte) :
    (Op.portPolarity n.val (polarityRaw q)).next step rd =
      nextRmw .polarity n (decide (q = .inverted)) step rd := by
  simp [Op.next, nextPort, polarityBit_eq]

@[simp] theorem next_portDirection (n : Port) (d : Direction) (step : Nat) (rd : Option Byte) :
    (Op.portDirection n.val (directionRaw d)).next step rd =
      nextRmw .configuration n (decide (d = .input)) step rd := by
  simp [Op.next, nextPort, directionBit_eq]

/-! ### The checks of a call -/

/-- Every operation either fails an operand check or is one of four shapes (R111). -/
theorem next_shape (op : Op) :
    (∀ step rd, op.next step rd = nextRejected step) ∨
    (∃ q, ∀ step rd, op.next step rd = nextGet q step rd) ∨
    (∃ n, ∀ step rd, op.next step rd = nextPortRead n step rd) ∨
    (∃ c v, ∀ step rd, op.next step rd = nextSet c v step) ∨
    (∃ c n x, ∀ step rd, op.next step rd = nextRmw c n x step rd) ∨
    (∀ step rd, op.next step rd = nextReset step) := by
  have port : ∀ c o, (∀ step rd, nextPort c o step rd = nextRejected step) ∨
      (∃ n x, ∀ step rd, nextPort c o step rd = nextRmw c n x step rd) := by
    intro c o
    cases o with
    | none => exact .inl fun _ _ => rfl
    | some y => exact .inr ⟨y.1, y.2, fun _ _ => rfl⟩
  cases op with
  | getRegister r =>
    cases h : regOfCode r with
    | none => exact .inl fun _ _ => by simp [Op.next, h]
    | some q => exact .inr (.inl ⟨q, fun _ _ => by simp [Op.next, h]⟩)
  | setRegister r v =>
    cases h : csrOfCode r with
    | none => exact .inl fun _ _ => by simp [Op.next, h]
    | some c => exact .inr (.inr (.inr (.inl ⟨c, v, fun _ _ => by simp [Op.next, h]⟩)))
  | resetRegister r =>
    cases h : csrOfCode r with
    | none => exact .inl fun _ _ => by simp [Op.next, h]
    | some c => exact .inr (.inr (.inr (.inl ⟨c, Config.default c, fun _ _ => by simp [Op.next, h]⟩)))
  | portRead p =>
    cases h : portOf p with
    | none => exact .inl fun _ _ => by simp [Op.next, h]
    | some n => exact .inr (.inr (.inl ⟨n, fun _ _ => by simp [Op.next, h]⟩))
  | portWrite p l =>
    obtain h | ⟨n, x, h⟩ := port .output (portAndBit p ((levelOfRaw l).map levelBit))
    · exact .inl h
    · exact .inr (.inr (.inr (.inr (.inl ⟨_, n, x, h⟩))))
  | portPolarity p q =>
    obtain h | ⟨n, x, h⟩ := port .polarity (portAndBit p ((polarityOfRaw q).map polarityBit))
    · exact .inl h
    · exact .inr (.inr (.inr (.inr (.inl ⟨_, n, x, h⟩))))
  | portDirection p d =>
    obtain h | ⟨n, x, h⟩ := port .configuration (portAndBit p ((directionOfRaw d).map directionBit))
    · exact .inl h
    · exact .inr (.inr (.inr (.inr (.inl ⟨_, n, x, h⟩))))
  | reset => exact .inr (.inr (.inr (.inr (.inr fun _ _ => rfl))))

/-- The first thing an operation does: reject an operand, or issue a transaction. -/
theorem next_zero (op : Op) (rd : Option Byte) :
    op.next 0 rd = .reject ∨ ∃ acc, op.next 0 rd = .emit acc := by
  obtain h | ⟨q, h⟩ | ⟨n, h⟩ | ⟨c, v, h⟩ | ⟨c, n, x, h⟩ | h := next_shape op <;> rw [h]
  · exact .inl rfl
  all_goals exact .inr ⟨_, rfl⟩

/-- A call with an invalid handle (R172). -/
theorem callOp_invalid {s : State} (op : Op) (h : s.slave = none) :
    callOp op s = raise .invalidArgument s := by
  obtain h0 | ⟨acc, h0⟩ := next_zero op none
  · rw [callOp, opMoves, runOp_reject _ h0]; rfl
  · rw [callOp, opMoves, runOp_invalid h0 (by exact h)]; rfl

/-- A call with an operand that fails its check (R173, R179, R204, R205). -/
theorem callOp_reject {op : Op} (h : op.next 0 none = .reject) (s : State) :
    callOp op s = raise .invalidArgument s := by
  rw [callOp, opMoves, runOp_reject _ h]; rfl

/-! ### Each kind of operation, from its start: what its rule's pseudocode says -/

theorem busRead_answer (ag : Agent) (a : SlaveAddr) (r : Reg) (s : State) :
    (busRead ag a r s).2 ≠ .done := by
  rcases transact_answer ag a (.read r) s with h | ⟨_, d, _, h⟩ | ⟨_, _, h, _⟩
  · simp only [transact] at h; simp [h]
  · simp only [transact] at h; simp [h]
  · cases h

theorem busWrite_answer (ag : Agent) (a : SlaveAddr) (c : Csr) (v : Byte) (s : State) (d : Byte) :
    (busWrite ag a c v s).2 ≠ .data d := by
  rcases transact_answer ag a (.write c v) s with h | ⟨_, d, h, _⟩ | ⟨_, _, _, h⟩
  · simp only [transact] at h; simp [h]
  · cases h
  · simp only [transact] at h; simp [h]

/-- A read of a writable register that succeeds returns the register. -/
theorem busRead_data_reg {ag : Agent} {a : SlaveAddr} {c : Csr} {s u : State} {d : Byte}
    (h : busRead ag a (.csr c) s = (u, .data d)) : d = s.target.reg c := by
  rcases transact_cases ag a (.read (.csr c)) s with ⟨_, e⟩ | ⟨_, tgt, ans, landed, e, hcase⟩ <;>
    simp only [transact_read] at e <;> rw [e] at h
  · simp at h
  · obtain ⟨r, hx, -, ⟨rfl, -⟩ | ⟨rfl, rfl⟩⟩ | ⟨c', v', hx, -⟩ := hcase
    · simp at h
    · cases hx; simp [readValue] at h; exact h.2.symm
    · cases hx

/-- A write that succeeds leaves its byte in the register. -/
theorem busWrite_done_reg {ag : Agent} {a : SlaveAddr} {c : Csr} {v : Byte} {s u : State}
    (h : busWrite ag a c v s = (u, .done)) : u.target.reg c = v := by
  rcases transact_cases ag a (.write c v) s with ⟨_, e⟩ | ⟨_, tgt, ans, landed, e, hcase⟩ <;>
    simp only [transact_write] at e <;> rw [e] at h
  · simp at h
  · obtain ⟨r, hx, -⟩ | ⟨c', v', hx, ⟨rfl, -⟩ | ⟨rfl, -, rfl⟩⟩ := hcase
    · cases hx
    · simp at h
    · cases hx; cases h; simp

/-- An operation of one read (R174, R207). -/
theorem callOp_read {op : Op} {r : Reg} {value : Byte → Value} {a : SlaveAddr} {s : State}
    (h0 : op.next 0 none = .emit (.read r)) (h1 : ∀ d, op.next 1 (some d) = .finish (value d))
    (hv : s.slave = some a) :
    callOp op s =
      (match busRead .controller a r s with
      | (u, .data d) => u.complete (.ok (value d))
      | (u, _) => u.complete (.err .transportFailure)) := by
  have hb := busRead_answer .controller a r s
  have hc := transact_withCtrl .controller a (.read r) s (.busy op 0 none)
  rcases e : busRead .controller a r s with ⟨u, d | _ | _⟩ <;> simp only [transact, e] at hc hb
  · rw [callOp, opMoves, runOp_data h0 (by exact hv) (by simpa [transact] using hc), runOp_finish _ (h1 d)]; rfl
  · exact absurd rfl hb
  · rw [callOp, opMoves, runOp_fail h0 (by exact hv) (by simpa [transact] using hc)]; rfl

/-- An operation of one write (R175, R176). -/
theorem callOp_write {op : Op} {c : Csr} {v : Byte} {a : SlaveAddr} {s : State}
    (h0 : op.next 0 none = .emit (.write c v)) (h1 : op.next 1 none = .finish .unit)
    (hv : s.slave = some a) :
    callOp op s =
      (match busWrite .controller a c v s with
      | (u, .done) => u.complete (.ok .unit)
      | (u, _) => u.complete (.err .transportFailure)) := by
  have hb := busWrite_answer .controller a c v s
  have hc := transact_withCtrl .controller a (.write c v) s (.busy op 0 none)
  rcases e : busWrite .controller a c v s with ⟨u, d | _ | _⟩ <;> simp only [transact, e] at hc hb
  · exact absurd rfl (hb d)
  · rw [callOp, opMoves, runOp_done h0 (by exact hv) (by simpa [transact] using hc), runOp_finish _ h1]; rfl
  · rw [callOp, opMoves, runOp_fail h0 (by exact hv) (by simpa [transact] using hc)]; rfl

/-- The last transaction of an operation, a write, after the other agents' turn. -/
theorem runOp_lastWrite {op : Op} {step n : Nat} {rd : Option Byte} {c : Csr} {v : Byte}
    {a : SlaveAddr} {u : State} (h0 : op.next (step + 1) rd = .emit (.write c v))
    (h1 : op.next (step + 2) rd = .finish .unit) (hv : u.slave = some a) (ctrl : Ctrl) :
    runOp (n + 2) op (step + 1) rd { u with ctrl := ctrl } =
      (match busWrite .controller a c v (environmentTurn u) with
      | (w, .done) => w.complete (.ok .unit)
      | (w, _) => w.complete (.err .transportFailure)) := by
  have hb := busWrite_answer .controller a c v (environmentTurn u)
  have hc := transact_withCtrl .controller a (.write c v) (environmentTurn u) ctrl
  have he := environmentTurn_withCtrl u ctrl
  rcases e : busWrite .controller a c v (environmentTurn u) with ⟨w, d | _ | _⟩ <;>
    simp only [transact, e] at hc hb
  · exact absurd rfl (hb d)
  · rw [runOp_done h0 (by exact hv) (by simpa [transact, he] using hc), runOp_finish _ h1]; rfl
  · rw [runOp_fail h0 (by exact hv) (by simpa [transact, he] using hc)]; rfl

/-- The read-modify-write (R206). -/
theorem callOp_rmw {op : Op} {c : Csr} {n : Port} {x : Bool} {a : SlaveAddr} {s : State}
    (h : ∀ step rd, op.next step rd = nextRmw c n x step rd) (hv : s.slave = some a) :
    callOp op s = rmwOutcome a c n x s := by
  have h0 : op.next 0 none = .emit (.read (.csr c)) := by rw [h]; rfl
  have hb := busRead_answer .controller a (.csr c) s
  have hu := slave_transact .controller a (.read (.csr c)) s
  have hc := transact_withCtrl .controller a (.read (.csr c)) s (.busy op 0 none)
  rcases e : busRead .controller a (.csr c) s with ⟨u, d | _ | _⟩ <;>
    simp only [transact, e] at hc hb hu
  · rw [callOp, opMoves, runOp_data h0 (by exact hv) (by simpa [transact] using hc), rmwOutcome, e]
    exact runOp_lastWrite (by rw [h]; rfl) (by rw [h]; rfl) (hu.trans hv) _
  · exact absurd rfl hb
  · rw [callOp, opMoves, runOp_fail h0 (by exact hv) (by simpa [transact] using hc), rmwOutcome, e]; rfl

/-- RESET (R240). -/
theorem callOp_reset {a : SlaveAddr} {s : State} (hv : s.slave = some a) :
    callOp .reset s = resetOutcome a s := by
  have h0 : Op.reset.next 0 none = .emit (.write .output 0xFF#8) := rfl
  have h1 : Op.reset.next 1 none = .emit (.write .polarity 0x00#8) := rfl
  have hb := busWrite_answer .controller a .output 0xFF#8 s
  have hu := slave_transact .controller a (.write .output 0xFF#8) s
  have hc := transact_withCtrl .controller a (.write .output 0xFF#8) s (.busy .reset 0 none)
  rcases e : busWrite .controller a .output 0xFF#8 s with ⟨u, d | _ | _⟩ <;>
    simp only [transact, e] at hc hb hu
  · exact absurd rfl (hb d)
  · have hb := busWrite_answer .controller a .polarity 0x00#8 (environmentTurn u)
    have hw := slave_transact .controller a (.write .polarity 0x00#8) (environmentTurn u)
    have hc' := transact_withCtrl .controller a (.write .polarity 0x00#8) (environmentTurn u)
      (.busy .reset 1 none)
    have he := environmentTurn_withCtrl u (.busy .reset 1 none)
    rw [callOp, opMoves, runOp_done h0 (by exact hv) (by simpa [transact] using hc), resetOutcome, e]
    have hv' : ({ u with ctrl := .busy .reset 1 none } : State).slave = some a := hu.trans hv
    rcases e' : busWrite .controller a .polarity 0x00#8 (environmentTurn u) with ⟨w, d | _ | _⟩ <;>
      simp only [transact, e', slave_environmentTurn] at hc' hb hw
    · exact absurd rfl (hb d)
    · rw [runOp_done h1 (by exact hv') (by simpa [transact, he] using hc')]
      simp only [e']
      exact runOp_lastWrite rfl rfl ((hw.trans hu).trans hv) _
    · rw [runOp_fail h1 (by exact hv') (by simpa [transact, he] using hc')]
      simp only [e']
      rfl
  · rw [callOp, opMoves, runOp_fail h0 (by exact hv) (by simpa [transact] using hc), resetOutcome, e]; rfl

/-! ### The step -/

/-- A property of the state that every part of a step keeps is kept by the step. The controller's
transactions go to an address in range, the other agents' to the target's. -/
theorem step_keeps {P : State → Prop}
    (hctrl : ∀ s c, P s → P { s with ctrl := c })
    (hinput : ∀ s i h, P s → P { s with inbox := i, handle := h })
    (hdone : ∀ s r, P s → P (s.complete r))
    (hanswer : ∀ s a, P s → P (s.answered a))
    (hafter : ∀ s, P s → P { s with env := s.env.afterTurn })
    (hun : ∀ s a rq, P s → P (unanswered .direct a rq s))
    (hpower : ∀ s, P s → P (powerCycle s))
    (htx : ∀ s ag a acc, (ag = .controller → addrInRange a = true) →
      (ag = .environment → a = s.board.targetAddr) → P s → P (transact ag a acc s).1)
    {s t : State} (hs : P s) (hstep : step s = .next t) : P t := by
  have hturn : ∀ s, P s → P (environmentTurn s) := fun s hs =>
    environmentTurn_keeps (hafter s hs) (fun t acc => htx t _ _ acc nofun fun _ => rfl) hs
  have hcall : ∀ op s, P s → P (callOp op s) := fun op s hs =>
    callOp_keeps hctrl hdone hturn (fun s a acc ha => htx s _ a acc (fun _ => ha) nofun) op s hs
  have hdirect : ∀ a acc s, P s → P (direct a acc s) := fun a acc s hs =>
    hanswer _ _ (htx s _ a acc nofun nofun hs)
  have hexec : ∀ i s u, P s → exec i s = .next u → P u := by
    intro i s u hs he
    cases i with
    | wrIn a v =>
      simp only [exec, execWrIn] at he
      split at he
      · simp at he
      · obtain rfl := by simpa using he
        exact hanswer _ _ (hun _ _ _ hs)
    | rdIn _ | rdOut _ | rdPol _ | rdCfg _ | wrOut _ _ | wrPol _ _ | wrCfg _ _ =>
      cases he; exact hdirect _ _ _ hs
    | getRegister _ | setRegister _ _ | resetRegister _ | portRead _ | portWrite _ _
    | portPolarity _ _ | portDirection _ _ | reset =>
      cases he; exact hcall _ _ hs
  have hsettle : ∀ o, (∀ u, o = .next u → P u) → ∀ u, settle o = .next u → P u := by
    intro o ho u hu
    cases o with
    | next v => cases hu; exact hturn _ (ho v rfl)
    | fault f => cases hu
    | refused r => cases hu
  unfold step at hstep
  split at hstep
  · rename_i i u hf
    refine hsettle _ (fun v hv => hexec i u v ?_ hv) t hstep
    unfold fetch at hf
    split at hf
    · cases hf
    · split at hf
      · cases hf
      · cases hf; exact hinput _ _ _ hs
      · cases hf; exact hinput _ _ _ hs
      · unfold fetchFrame at hf
        split at hf
        · cases hf; exact hinput _ _ s.handle hs
        · cases hf
      · cases hf
  · rename_i o hf
    refine hsettle _ (fun v hv => ?_) t hstep
    subst hv
    unfold fetch at hf
    split at hf
    · rename_i op step rd hc
      simp only [Fetched.settled.injEq, resumeOp] at hf
      have hrun : P (runOp opMoves op step rd s) :=
        runOp_keeps hctrl hdone hturn
          (fun s a acc ha => htx s _ a acc (fun _ => ha) nofun) _ _ _ _ _ hs
      split at hf <;> cases hf <;> exact hrun
    · split at hf
      · cases hf; exact hs
      · cases hf
      · cases hf
      · unfold fetchFrame at hf
        split at hf
        · cases hf
        · rename_i e he
          simp only [Fetched.settled.injEq, rejectFrame] at hf
          split at hf
          · cases hf
          · split at hf
            · cases hf
            · cases hf; exact hanswer _ _ (hun _ _ _ (hinput _ _ s.handle hs))
      · cases hf; exact hpower _ (hinput _ _ s.handle hs)

end Sys2Proof.Machine
end

