-- ==== Sys2Proof/Laws/PerInstr.lean ====
section
/-! SUPPORT. A statement about every instruction as syntax, one lemma a constructor: the shape of its
encoding. A frame begins with an address byte for writing and the command byte of its register; a read
has four bytes, a write three (30_encoding.md R101, R102, R109). -/

namespace Sys2Proof.Laws.EncodeShape

/-- The shape of a frame, if the instruction has one. -/
def Statement (i : Instr) : Prop :=
  ∀ m bs, encode m i = some bs →
    ∃ a r, bs.take 2 = [addressByte a false, indexOf m r] ∧
      (bs.length = 3 ∨ (bs.length = 4 ∧ bs[2]? = some (addressByte a true)))

theorem of_read {i : Instr} (a : SlaveAddr) (r : Reg) (h : ∀ m, encode m i = some (readFrame m a r)) :
    Statement i := by
  intro m bs hbs
  obtain rfl := Option.some.inj ((h m).symm.trans hbs)
  exact ⟨a, r, rfl, .inr ⟨rfl, rfl⟩⟩

theorem of_write {i : Instr} (a : SlaveAddr) (r : Reg) (v : Byte)
    (h : ∀ m, encode m i = some (writeFrame m a r v)) : Statement i := by
  intro m bs hbs
  obtain rfl := Option.some.inj ((h m).symm.trans hbs)
  exact ⟨a, r, rfl, .inl rfl⟩

theorem of_call {i : Instr} (h : ∀ m, encode m i = none) : Statement i := by
  intro m bs hbs
  simp [h m] at hbs

theorem rdIn (a : SlaveAddr) : Statement (.rdIn a) := of_read a .input fun _ => rfl

theorem rdOut (a : SlaveAddr) : Statement (.rdOut a) := of_read a (.csr .output) fun _ => rfl

theorem rdPol (a : SlaveAddr) : Statement (.rdPol a) := of_read a (.csr .polarity) fun _ => rfl

theorem rdCfg (a : SlaveAddr) : Statement (.rdCfg a) := of_read a (.csr .configuration) fun _ => rfl

theorem wrOut (a : SlaveAddr) (v : Byte) : Statement (.wrOut a v) := of_write a (.csr .output) v fun _ => rfl

theorem wrPol (a : SlaveAddr) (v : Byte) : Statement (.wrPol a v) := of_write a (.csr .polarity) v fun _ => rfl

theorem wrCfg (a : SlaveAddr) (v : Byte) : Statement (.wrCfg a v) :=
  of_write a (.csr .configuration) v fun _ => rfl

theorem wrIn (a : SlaveAddr) (v : Byte) : Statement (.wrIn a v) := of_write a .input v fun _ => rfl

theorem getRegister (r : Nat) : Statement (.getRegister r) := of_call fun _ => rfl

theorem setRegister (r : Nat) (v : Byte) : Statement (.setRegister r v) := of_call fun _ => rfl

theorem resetRegister (r : Nat) : Statement (.resetRegister r) := of_call fun _ => rfl

theorem portRead (p : Int) : Statement (.portRead p) := of_call fun _ => rfl

theorem portWrite (p l : Int) : Statement (.portWrite p l) := of_call fun _ => rfl

theorem portPolarity (p q : Int) : Statement (.portPolarity p q) := of_call fun _ => rfl

theorem portDirection (p d : Int) : Statement (.portDirection p d) := of_call fun _ => rfl

theorem reset : Statement .reset := of_call fun _ => rfl

end Sys2Proof.Laws.EncodeShape
end

