-- ==== Sys2Proof/Tests/Slice0.lean ====
section
/-! SUPPORT. The model's own tests. Expected results are from the specification: the frame patterns of
30_encoding.md R107 and the vectors of 95_test_vectors.md, whose names stand in the comments. At the
end, for every statement with hypotheses, a witness that meets them. -/

namespace Sys2Proof.Tests

open Sys2Proof Sys2Proof.Machine

/-! ### Helpers -/

/-- A board with TARGET_ADDR = 0x38, FIXED_ADDR = 0x39, `INPUT_MODEL = Free`, EXCLUSIVE (the conventions
of 95_test_vectors.md), the default REG_INDEX and a descriptor bus. -/
def board : Board :=
  { targetAddr := 0x38#7, fixedAddr := 0x39#7, inputModel := .free, exclusive := true,
    regIndex := defaultIndex, busOpen := .descriptor }

/-- `h = {Open(3), 0x38}`. -/
def h : Handle := { bus := .opened 3, addr := 0x38#7 }

/-- A transaction that does not fail, with its draw_input(). -/
def ok (input : Byte) : Draw :=
  { fail := false, applied := false, cmd := 0x00#8, input := input, pins := 0x00#8 }

/-- A transaction that fails, its write applied or not. -/
def bad (applied : Bool) : Draw :=
  { fail := true, applied := applied, cmd := 0x77#8, input := 0x00#8, pins := 0x00#8 }

/-- A state with the given OUT/POL/CFG, draws and handle. -/
def withHandle (hd : Option Handle) (out pol cfg : Byte) (draws : List Draw) : State :=
  { target := { out := out, pol := pol, cfg := cfg, cmd := 0x55#8 }
    ctrl := .idle
    env := { pins := 0x00#8, draws := draws, drawn := 0, turns := [], turned := 0 }
    handle := hd
    returned := none
    inbox := []
    bus := []
    board := board }

/-- The same with the handle `h`. -/
def st (out pol cfg : Byte) (draws : List Draw) : State := withHandle (some h) out pol cfg draws

/-- What came back and OUT/POL/CFG afterwards, of an outcome that goes on. -/
def view : Host.Outcome State Fault Refusal → Option (Option Returned × Byte × Byte × Byte)
  | .next s => some (s.returned, s.target.out, s.target.pol, s.target.cfg)
  | .fault _ => none
  | .refused _ => none

/-- The accesses logged by an outcome that goes on. -/
def accesses : Host.Outcome State Fault Refusal → List (Option Access)
  | .next s => s.bus.map Event.access?
  | .fault _ => []
  | .refused _ => []

/-- The command pointer of an outcome that goes on. -/
def cmdAfter : Host.Outcome State Fault Refusal → Option Byte
  | .next s => some s.target.cmd
  | .fault _ => none
  | .refused _ => none

/-- The refusal of an outcome that is one. -/
def refusal : Host.Outcome State Fault Refusal → Option Refusal
  | .next _ => none
  | .fault _ => none
  | .refused r => some r

/-- An operation's result with the registers. -/
def op (r : Result) (out pol cfg : Byte) : Option (Option Returned × Byte × Byte × Byte) :=
  some (some (.operation r), out, pol, cfg)

/-- A primitive transaction's answer with the registers. -/
def tx (a : Answer) (out pol cfg : Byte) : Option (Option Returned × Byte × Byte × Byte) :=
  some (some (.transaction a), out, pol, cfg)

/-! ### Well-formedness: an ill-formed term for each check -/

theorem test_wf_address_low : (Instr.rdOut 0x37#7).wellFormed = false := by decide
theorem test_wf_address_high : (Instr.wrCfg 0x40#7 0x00#8).wellFormed = false := by decide
theorem test_wf_address_ends :
    (Instr.rdIn 0x38#7).wellFormed = true ∧ (Instr.wrPol 0x3F#7 0xFF#8).wellFormed = true := by decide
theorem test_wf_register_code :
    (Instr.getRegister 4).wellFormed = false ∧ (Instr.getRegister 0).wellFormed = true ∧
    (Instr.getRegister 3).wellFormed = true := by decide
theorem test_wf_writable_code :
    (Instr.setRegister 0 0x12#8).wellFormed = false ∧ (Instr.resetRegister 0).wellFormed = false ∧
    (Instr.setRegister 4 0x12#8).wellFormed = false ∧ (Instr.resetRegister 3).wellFormed = true := by
  decide
theorem test_wf_port :
    (Instr.portRead 8).wellFormed = false ∧ (Instr.portRead (-1)).wellFormed = false ∧
    (Instr.portRead 0).wellFormed = true ∧ (Instr.portRead 7).wellFormed = true := by decide
theorem test_wf_values :
    (Instr.portWrite 0 2).wellFormed = false ∧ (Instr.portPolarity 0 (-1)).wellFormed = false ∧
    (Instr.portDirection 7 3).wellFormed = false ∧ (Instr.portDirection 7 1).wellFormed = true := by
  decide

/-! ### Decoding: words written out from R107 -/

theorem test_decode_rdIn : decode defaultIndex [0x70#8, 0x00#8, 0x71#8, 0x3C#8] = .ok (.rdIn 0x38#7) := by decide
theorem test_decode_rdOut : decode defaultIndex [0x72#8, 0x01#8, 0x73#8, 0xFF#8] = .ok (.rdOut 0x39#7) := by decide
theorem test_decode_rdPol : decode defaultIndex [0x7E#8, 0x02#8, 0x7F#8, 0x00#8] = .ok (.rdPol 0x3F#7) := by decide
theorem test_decode_rdCfg : decode defaultIndex [0x78#8, 0x03#8, 0x79#8, 0x00#8] = .ok (.rdCfg 0x3C#7) := by decide
theorem test_decode_wrOut : decode defaultIndex [0x70#8, 0x01#8, 0xF7#8] = .ok (.wrOut 0x38#7 0xF7#8) := by decide
theorem test_decode_wrPol : decode defaultIndex [0x70#8, 0x02#8, 0xAA#8] = .ok (.wrPol 0x38#7 0xAA#8) := by decide
theorem test_decode_wrCfg : decode defaultIndex [0x76#8, 0x03#8, 0x00#8] = .ok (.wrCfg 0x3B#7 0x00#8) := by decide
theorem test_decode_wrIn : decode defaultIndex [0x70#8, 0x00#8, 0x12#8] = .ok (.wrIn 0x38#7 0x12#8) := by decide

/-- R103, R108: what is no frame of the table, each by its name. -/
theorem test_decode_rejects :
    decode defaultIndex [0x70#8, 0x04#8, 0x71#8, 0x00#8] = .error .reservedCommand ∧
    decode defaultIndex [0x70#8, 0xFF#8, 0x00#8] = .error .reservedCommand ∧
    decode defaultIndex [0x6E#8, 0x01#8, 0x00#8] = .error .foreignAddress ∧
    decode defaultIndex [0x80#8, 0x01#8, 0x00#8] = .error .foreignAddress ∧
    decode defaultIndex [0x71#8, 0x01#8, 0x00#8] = .error .readFirst ∧
    decode defaultIndex [0x70#8, 0x01#8, 0x73#8, 0x00#8] = .error .addressesDiffer ∧
    decode defaultIndex [0x70#8, 0x01#8, 0xF6#8, 0x00#8] = .error .tooLong ∧
    decode defaultIndex [0x70#8, 0x01#8, 0x71#8, 0x00#8, 0x00#8] = .error .tooLong ∧
    decode defaultIndex [0x70#8, 0x01#8] = .error .noData ∧
    decode defaultIndex [0x70#8] = .error .noCommand ∧
    decode defaultIndex [] = .error .empty := by decide

/-- R11: REG_INDEX is a configuration field. -/
theorem test_decode_index_field :
    decode { defaultIndex with output := 0x42#8 } [0x70#8, 0x42#8, 0xF7#8] =
      .ok (.wrOut 0x38#7 0xF7#8) ∧
    decode { defaultIndex with output := 0x42#8 } [0x70#8, 0x01#8, 0xF7#8] =
      .error .reservedCommand := by decide

/-! ### Masking functions (95_test_vectors.md 2.1) -/

theorem test_with_bit_set :
    withBitSet 0x00#8 0 true = 0x01#8 ∧ withBitSet 0xFF#8 0 false = 0xFE#8 ∧
    withBitSet 0xFF#8 7 false = 0x7F#8 ∧ withBitSet 0x00#8 7 true = 0x80#8 ∧
    withBitSet 0x55#8 7 true = 0xD5#8 ∧ withBitSet 0xA5#8 1 true = 0xA7#8 ∧
    withBitSet 0xA5#8 2 false = 0xA1#8 ∧ withBitSet 0x5A#8 3 false = 0x52#8 := by decide

theorem test_bit_get :
    [bitGet 0xA5#8 0, bitGet 0xA5#8 1, bitGet 0xA5#8 2, bitGet 0xA5#8 3, bitGet 0xA5#8 4,
      bitGet 0xA5#8 5, bitGet 0xA5#8 6, bitGet 0xA5#8 7] =
    [1#8, 0#8, 1#8, 0#8, 0#8, 1#8, 0#8, 1#8] := by decide

/-! ### Primitive transactions (95_test_vectors.md 2.2) -/

-- T1
theorem test_rdOut :
    view (exec (.rdOut 0x38#7) (st 0xFF#8 0x00#8 0xFF#8 [ok 0#8])) =
      tx (.data 0xFF#8) 0xFF#8 0x00#8 0xFF#8 := by decide
-- T2
theorem test_rdIn :
    view (exec (.rdIn 0x38#7) (st 0xFF#8 0x00#8 0xFF#8 [ok 0x3C#8])) =
      tx (.data 0x3C#8) 0xFF#8 0x00#8 0xFF#8 ∧
    cmdAfter (exec (.rdIn 0x38#7) (st 0xFF#8 0x00#8 0xFF#8 [ok 0x3C#8])) = some 0x00#8 := by decide
-- R146, read back the value of T6
theorem test_rdPol :
    view (exec (.rdPol 0x38#7) (st 0xFF#8 0xAA#8 0x0F#8 [ok 0#8])) =
      tx (.data 0xAA#8) 0xFF#8 0xAA#8 0x0F#8 := by decide
-- T7
theorem test_rdCfg_fails :
    view (exec (.rdCfg 0x38#7) (st 0xFF#8 0x00#8 0xFF#8 [bad true])) =
      tx .fail 0xFF#8 0x00#8 0xFF#8 := by decide
-- T4
theorem test_wrCfg :
    view (exec (.wrCfg 0x38#7 0x00#8) (st 0xFF#8 0x00#8 0xFF#8 [ok 0#8])) =
      tx .done 0xFF#8 0x00#8 0x00#8 ∧
    cmdAfter (exec (.wrCfg 0x38#7 0x00#8) (st 0xFF#8 0x00#8 0xFF#8 [ok 0#8])) = some 0x03#8 := by
  decide
-- T5, T6
theorem test_wrPol_fails :
    view (exec (.wrPol 0x38#7 0xAA#8) (st 0xFF#8 0x00#8 0xFF#8 [bad false])) =
      tx .fail 0xFF#8 0x00#8 0xFF#8 ∧
    view (exec (.wrPol 0x38#7 0xAA#8) (st 0xFF#8 0x00#8 0xFF#8 [bad true])) =
      tx .fail 0xFF#8 0xAA#8 0xFF#8 := by decide
-- T8
theorem test_wrOut_elsewhere :
    view (exec (.wrOut 0x39#7 0x00#8) (st 0xFF#8 0x00#8 0xFF#8 [])) =
      tx .fail 0xFF#8 0x00#8 0xFF#8 ∧
    cmdAfter (exec (.wrOut 0x39#7 0x00#8) (st 0xFF#8 0x00#8 0xFF#8 [])) = some 0x55#8 := by decide
-- T11, its first transaction
theorem test_wrOut :
    view (exec (.wrOut 0x38#7 0x00#8) (st 0xFF#8 0x00#8 0xFF#8 [ok 0#8])) =
      tx .done 0x00#8 0x00#8 0xFF#8 := by decide
-- T9
theorem test_wrIn :
    refusal (exec (.wrIn 0x38#7 0x12#8) (st 0xFF#8 0x00#8 0xFF#8 [])) = some .writeToInput := by decide
-- T10
theorem test_reserved_frame :
    refusal (step (placeFrame [0x70#8, 0x04#8, 0x71#8, 0x00#8] (st 0xFF#8 0x00#8 0xFF#8 []))) =
      some .reservedCommand := by decide

/-! ### Register-level operations (95_test_vectors.md 2.3, S5) -/

-- S5, V2
theorem test_validate :
    validate .descriptor (some ⟨.opened 3, 0x37#7⟩) = false ∧ validate .descriptor (some ⟨.opened 3, 0x38#7⟩) = true ∧
    validate .descriptor (some ⟨.opened 3, 0x3F#7⟩) = true ∧ validate .descriptor (some ⟨.opened 3, 0x40#7⟩) = false ∧
    validate .descriptor (some ⟨.closed, 0x38#7⟩) = false ∧ validate .descriptor (some ⟨.opened (-1), 0x38#7⟩) = false ∧
    validate .descriptor (some ⟨.opened 0, 0x38#7⟩) = true ∧ validate .descriptor none = false := by decide
-- V1, V3, V6
theorem test_getRegister_rejected :
    view (exec (.getRegister 1) (withHandle none 0xFF#8 0x00#8 0xFF#8 [])) =
      op (.err .invalidArgument) 0xFF#8 0x00#8 0xFF#8 ∧
    view (exec (.getRegister 1) (withHandle (some ⟨.opened (-1), 0x3F#7⟩) 0xFF#8 0x00#8 0xFF#8 [])) =
      op (.err .invalidArgument) 0xFF#8 0x00#8 0xFF#8 ∧
    view (exec (.getRegister 4) (st 0xFF#8 0x00#8 0xFF#8 [])) =
      op (.err .invalidArgument) 0xFF#8 0x00#8 0xFF#8 := by decide
-- V7, V14, V15
theorem test_getRegister :
    view (exec (.getRegister 0) (st 0xFF#8 0x00#8 0xFF#8 [ok 0x81#8])) =
      op (.ok (.byte 0x81#8)) 0xFF#8 0x00#8 0xFF#8 ∧
    view (exec (.getRegister 2) (st 0xFF#8 0x00#8 0xFF#8 [bad true])) =
      op (.err .transportFailure) 0xFF#8 0x00#8 0xFF#8 ∧
    view (exec (.getRegister 1) (withHandle (some ⟨.opened 3, 0x3A#7⟩) 0xFF#8 0x00#8 0xFF#8 [])) =
      op (.err .transportFailure) 0xFF#8 0x00#8 0xFF#8 := by decide
-- V10, V13
theorem test_setRegister :
    view (exec (.setRegister 3 0x0F#8) (st 0xFF#8 0x00#8 0xFF#8 [ok 0#8])) =
      op (.ok .unit) 0xFF#8 0x00#8 0x0F#8 ∧
    view (exec (.setRegister 1 0x5A#8) (st 0xFF#8 0x00#8 0xFF#8 [bad false])) =
      op (.err .transportFailure) 0xFF#8 0x00#8 0xFF#8 := by decide
-- V4, V8, V16
theorem test_setRegister_rejected :
    view (exec (.setRegister 1 0#8) (withHandle (some ⟨.closed, 0x3F#7⟩) 0xFF#8 0x00#8 0xFF#8 [])) =
      op (.err .invalidArgument) 0xFF#8 0x00#8 0xFF#8 ∧
    view (exec (.setRegister 0 0#8) (st 0xFF#8 0x00#8 0xFF#8 [])) =
      op (.err .invalidArgument) 0xFF#8 0x00#8 0xFF#8 ∧
    view (exec (.setRegister 7 0#8) (st 0xFF#8 0x00#8 0xFF#8 [])) =
      op (.err .invalidArgument) 0xFF#8 0x00#8 0xFF#8 := by decide
-- V11, V9
theorem test_resetRegister :
    view (exec (.resetRegister 3) (st 0xFF#8 0x00#8 0x0F#8 [ok 0#8])) =
      op (.ok .unit) 0xFF#8 0x00#8 0xFF#8 ∧
    view (exec (.resetRegister 0) (st 0xFF#8 0x00#8 0xFF#8 [])) =
      op (.err .invalidArgument) 0xFF#8 0x00#8 0xFF#8 := by decide
-- V12
theorem test_resetRegister_unchanged :
    view (exec (.resetRegister 2) (st 0xFF#8 0x00#8 0xFF#8 [ok 0#8])) =
      op (.ok .unit) 0xFF#8 0x00#8 0xFF#8 ∧
    accesses (exec (.resetRegister 2) (st 0xFF#8 0x00#8 0xFF#8 [ok 0#8])) =
      [some (.write .polarity 0x00#8)] := by decide

/-! ### Port-level operations (95_test_vectors.md 2.4) -/

-- P13, P14
theorem test_portRead :
    view (exec (.portRead 5) (st 0xFF#8 0x00#8 0xFF#8 [ok 0xA5#8])) =
      op (.ok (.level .high)) 0xFF#8 0x00#8 0xFF#8 ∧
    view (exec (.portRead 6) (st 0xFF#8 0x00#8 0xFF#8 [ok 0xA5#8])) =
      op (.ok (.level .low)) 0xFF#8 0x00#8 0xFF#8 := by decide
-- P15, P16
theorem test_portRead_errors :
    view (exec (.portRead 0) (st 0xFF#8 0x00#8 0xFF#8 [bad true])) =
      op (.err .transportFailure) 0xFF#8 0x00#8 0xFF#8 ∧
    view (exec (.portRead 8) (st 0xFF#8 0x00#8 0xFF#8 [])) =
      op (.err .invalidArgument) 0xFF#8 0x00#8 0xFF#8 := by decide
-- P1, P2
theorem test_portWrite :
    view (exec (.portWrite 3 0) (st 0xFF#8 0x00#8 0xFF#8 [ok 0#8, ok 0#8])) =
      op (.ok .unit) 0xF7#8 0x00#8 0xFF#8 ∧
    accesses (exec (.portWrite 3 0) (st 0xF7#8 0x00#8 0xFF#8 [ok 0#8, ok 0#8])) =
      [some (.read (.csr .output)), some (.write .output 0xF7#8)] := by decide
-- P3, P4, P5, P7
theorem test_portWrite_errors :
    view (exec (.portWrite 0 0) (st 0xFF#8 0x00#8 0xFF#8 [bad true])) =
      op (.err .transportFailure) 0xFF#8 0x00#8 0xFF#8 ∧
    view (exec (.portWrite 0 0) (st 0xFF#8 0x00#8 0xFF#8 [ok 0#8, bad true])) =
      op (.err .transportFailure) 0xFE#8 0x00#8 0xFF#8 ∧
    view (exec (.portWrite 0 0) (st 0xFF#8 0x00#8 0xFF#8 [ok 0#8, bad false])) =
      op (.err .transportFailure) 0xFF#8 0x00#8 0xFF#8 ∧
    view (exec (.portWrite 0 2) (st 0xFF#8 0x00#8 0xFF#8 [])) =
      op (.err .invalidArgument) 0xFF#8 0x00#8 0xFF#8 := by decide
-- P8, P9
theorem test_portPolarity :
    view (exec (.portPolarity 7 1) (st 0xFF#8 0x00#8 0xFF#8 [ok 0#8, ok 0#8])) =
      op (.ok .unit) 0xFF#8 0x80#8 0xFF#8 ∧
    view (exec (.portPolarity 7 0) (st 0xFF#8 0x80#8 0xFF#8 [ok 0#8, ok 0#8])) =
      op (.ok .unit) 0xFF#8 0x00#8 0xFF#8 := by decide
-- P10, P11, P12
theorem test_portDirection :
    view (exec (.portDirection 0 0) (st 0xFF#8 0x00#8 0xFF#8 [ok 0#8, ok 0#8])) =
      op (.ok .unit) 0xFF#8 0x00#8 0xFE#8 ∧
    view (exec (.portDirection 0 1) (st 0xFF#8 0x00#8 0xFE#8 [ok 0#8, ok 0#8])) =
      op (.ok .unit) 0xFF#8 0x00#8 0xFF#8 ∧
    view (exec (.portDirection 7 3) (st 0xFF#8 0x00#8 0xFF#8 [])) =
      op (.err .invalidArgument) 0xFF#8 0x00#8 0xFF#8 := by decide
-- P10: port 0 drives high, the others drive nothing
theorem test_drives :
    ({ out := 0xFF#8, pol := 0x00#8, cfg := 0xFE#8, cmd := 0x03#8 } : Target).drives 0 = some .high ∧
    ({ out := 0xFF#8, pol := 0x00#8, cfg := 0xFE#8, cmd := 0x03#8 } : Target).drives 1 = none := by
  decide
-- P17, its second operation
theorem test_portRead_pins :
    view (exec (.portRead 2)
      { st 0xFF#8 0x04#8 0xFF#8 [ok 0#8] with board := { board with inputModel := .pinXorPolarity } }) =
      op (.ok (.level .high)) 0xFF#8 0x04#8 0xFF#8 := by decide

/-! ### RESET (95_test_vectors.md 2.5) -/

-- R1
theorem test_reset :
    view (exec .reset (st 0x00#8 0xFF#8 0x00#8 [ok 0#8, ok 0#8, ok 0#8])) =
      op (.ok .unit) 0xFF#8 0x00#8 0xFF#8 ∧
    accesses (exec .reset (st 0x00#8 0xFF#8 0x00#8 [ok 0#8, ok 0#8, ok 0#8])) =
      [some (.write .output 0xFF#8), some (.write .polarity 0x00#8),
        some (.write .configuration 0xFF#8)] := by decide
-- R3, R4, R5
theorem test_reset_fails :
    view (exec .reset (st 0x00#8 0xFF#8 0x00#8 [bad false])) =
      op (.err .transportFailure) 0x00#8 0xFF#8 0x00#8 ∧
    view (exec .reset (st 0x00#8 0xFF#8 0x00#8 [ok 0#8, bad false])) =
      op (.err .transportFailure) 0xFF#8 0xFF#8 0x00#8 ∧
    view (exec .reset (st 0x00#8 0xFF#8 0x00#8 [ok 0#8, ok 0#8, bad true])) =
      op (.err .transportFailure) 0xFF#8 0x00#8 0xFF#8 := by decide

/-! ### Concurrency (95_test_vectors.md 2.6) -/

/-- A state that other agents share, with their turns settled. -/
def shared (out : Byte) (turns : List (List Access)) : State :=
  { st out 0x00#8 0xFF#8 [ok 0#8, ok 0#8, ok 0#8] with
    env :=
      { pins := 0x00#8, draws := [ok 0#8, ok 0#8, ok 0#8], drawn := 0, turns := turns, turned := 0 }
    board := { board with exclusive := false } }

-- K1
theorem test_lost_update :
    view (exec (.portWrite 0 1) (shared 0x00#8 [[.write .output 0xF0#8]])) =
      op (.ok .unit) 0x01#8 0x00#8 0xFF#8 := by decide

-- Program 5
theorem test_program5 :
    view (exec (.portWrite 4 1) (shared 0x00#8 [[.write .output 0x0F#8]])) =
      op (.ok .unit) 0x10#8 0x00#8 0xFF#8 := by decide

/-! ### A controller found Busy (R43, R172) -/

theorem test_busy_checks_handle :
    view (step { withHandle none 0x00#8 0xFF#8 0x00#8 [] with ctrl := .busy .reset 0 none }) =
      op (.err .invalidArgument) 0x00#8 0xFF#8 0x00#8 ∧
    view (step { withHandle none 0x00#8 0xFF#8 0x00#8 [] with ctrl := .busy (.portWrite 8 1) 0 none }) =
      op (.err .invalidArgument) 0x00#8 0xFF#8 0x00#8 := by decide

/-! ### The host's words -/

theorem test_fetch_word :
    view (step ((st 0xFF#8 0x00#8 0xFF#8 [ok 0#8]).withFetchWord 24 0x7001F7)) =
      tx .done 0xF7#8 0x00#8 0xFF#8 := by decide

/-! ### Witnesses: for each statement with hypotheses, a state and operands that meet them together -/

/-- No transaction fails. -/
def good : State := st 0x5A#8 0x0F#8 0xA5#8 [ok 0x81#8, ok 0x42#8, ok 0x00#8]

/-- The draws given, from the registers 0x00/0xFF/0x00. -/
def from00 (draws : List Draw) : State := st 0x00#8 0xFF#8 0x00#8 draws

theorem ready_good : good.Ready := ⟨h, rfl, rfl, rfl⟩

theorem ready_from00 (draws : List Draw) : (from00 draws).Ready := ⟨h, rfl, rfl, rfl⟩

theorem valid_h : validate .descriptor (some h) = true := by decide

/-- A REG_INDEX other than the default one. -/
def swapped : RegIndex :=
  { input := 0xFF#8, output := 0x00#8, polarity := 0x80#8, configuration := 0x01#8 }

theorem distinct_default : IndexDistinct defaultIndex := by
  rintro (_ | c) (_ | d) e <;> (try cases c) <;> (try cases d) <;>
    first | rfl | exact absurd e (by decide)

theorem distinct_swapped : IndexDistinct swapped := by
  rintro (_ | c) (_ | d) e <;> (try cases c) <;> (try cases d) <;>
    first | rfl | exact absurd e (by decide)

theorem witness_DecodeEncodeRoundTrip :
    IndexDistinct defaultIndex ∧ IndexDistinct swapped ∧
    (Instr.rdIn 0x38#7).wellFormed = true ∧ (Instr.rdIn 0x38#7).isComposite = false ∧
    (Instr.wrCfg 0x3F#7 0xFF#8).wellFormed = true ∧
    (Instr.wrCfg 0x3F#7 0xFF#8).isComposite = false :=
  ⟨distinct_default, distinct_swapped, by decide⟩

theorem witness_EncodeDecodeRoundTrip :
    decode defaultIndex [0x7E#8, 0x03#8, 0x7F#8, 0xA5#8] = .ok (.rdCfg 0x3F#7) ∧
    decode defaultIndex [0x70#8, 0x01#8, 0x00#8] = .ok (.wrOut 0x38#7 0x00#8) := by decide

theorem witness_ReservedFramesRefused :
    (∀ r ∈ allRegs, indexOf good.board.regIndex r ≠ 0x04#8 ∧
      indexOf good.board.regIndex r ≠ 0xFF#8) ∧
    addrInRange good.board.targetAddr = true ∧ 4 ≤ (0x04#8).toNat ∧ 4 ≤ (0xFF#8).toNat ∧
    isReadByte 0xF6#8 = false ∧ slaveOf 0x70#8 = good.board.targetAddr ∧
    slaveOf 0x71#8 = good.board.targetAddr ∧
    4 ≤ [0x01#8, 0x71#8, 0x00#8, 0x00#8].length := by decide

theorem witness_ForeignFrameFails :
    slaveOf 0x72#8 ≠ good.board.targetAddr ∧
    decode defaultIndex [0x72#8, 0x04#8, 0x00#8] = .error .reservedCommand ∧
    decode defaultIndex [0x6E#8, 0x01#8, 0x00#8] = .error .foreignAddress := by decide

theorem witness_WithBitSetFrame :
    (7 : Port) ≠ 0 ∧ (0x80#8).getLsbD (7 : Port).val = true ∧
    (0x80#8).getLsbD (0 : Port).val = false := by decide

theorem witness_ValidateExactly :
    busOpen .descriptor (.opened 0) = true ∧
    validate .descriptor (some ⟨.opened 0, 0x38#7⟩) = true ∧ validate .descriptor (some ⟨.opened 0, 0x3F#7⟩) = true ∧
    validate .descriptor (some ⟨.opened (-1), 0x38#7⟩) = false := by decide

theorem witness_InvalidHandleRejected :
    Instr.reset.isComposite = true ∧ (Instr.portRead 7).isComposite = true ∧
    validate .descriptor (withHandle none 0#8 0#8 0#8 []).handle = false ∧
    validate .descriptor (withHandle (some ⟨.opened 3, 0x40#7⟩) 0#8 0#8 0#8 []).handle = false ∧
    validate .descriptor (withHandle (some ⟨.closed, 0x38#7⟩) 0#8 0#8 0#8 []).handle = false := by decide

theorem witness_OperandOutOfRangeRejected :
    3 < (4 : Nat) ∧ ((-1 : Int) < 0 ∨ 7 < (-1 : Int)) ∧ ((8 : Int) < 0 ∨ 7 < (8 : Int)) ∧
    (2 : Int) ≠ 0 ∧ (2 : Int) ≠ 1 ∧ (-1 : Int) ≠ 0 ∧ (-1 : Int) ≠ 1 := by decide

theorem witness_InvalidArgumentExactly :
    (Instr.portWrite 8 0).isComposite = true ∧
    (∃ t, exec (.portWrite 8 0) good = .next t ∧
      t.returned = some (.operation (.err .invalidArgument))) ∧
    (∃ t, exec (.portWrite 7 0) good = .next t ∧ t.returned = some (.operation (.ok .unit))) :=
  ⟨rfl, ⟨_, rfl, rfl⟩, ⟨_, rfl, rfl⟩⟩

theorem witness_ReadCsrTransaction : good.Succeeds 0 := rfl

theorem witness_ReadInputTransaction : good.Succeeds 0 ∧ good.board.inputModel = .free := ⟨rfl, rfl⟩

theorem witness_ReadInputFromPins :
    ({ good with board := { board with inputModel := .pinXorPolarity } } : State).Succeeds 0 ∧
    ({ good with board := { board with inputModel := .pinXorPolarity } } : State).board.inputModel =
      .pinXorPolarity := ⟨rfl, rfl⟩

theorem witness_WriteTransaction : good.Succeeds 0 := rfl

theorem witness_FailedReadTransaction : (from00 [bad true]).Fails 0 := rfl

theorem witness_FailedWriteTransaction :
    (from00 [bad true]).Fails 0 ∧ ((from00 [bad true]).env.drawAt 0).applied = true ∧
    (from00 [bad false]).Fails 0 ∧ ((from00 [bad false]).env.drawAt 0).applied = false ∧
    Csr.polarity ≠ Csr.output := ⟨rfl, rfl, rfl, rfl, by decide⟩

theorem witness_WrongAddressFails :
    (0x39#7 : SlaveAddr) ≠ good.board.targetAddr ∧ (0x00#7 : SlaveAddr) ≠ good.board.targetAddr := by
  decide

theorem witness_PrimitiveFrame :
    (Instr.wrOut 0x38#7 0x12#8).isComposite = false ∧ (Instr.wrIn 0x39#7 0x12#8).isComposite = false ∧
    (∃ t, exec (.wrOut 0x38#7 0x12#8) good = .next t) ∧
    (∃ t, exec (.wrIn 0x39#7 0x12#8) good = .next t) := ⟨rfl, rfl, ⟨_, rfl⟩, ⟨_, rfl⟩⟩

theorem witness_GetRegisterRule :
    validate .descriptor (withHandle none 0#8 0#8 0#8 []).handle = false ∧ 3 < (4 : Nat) ∧
    good.handle = some h ∧ validate .descriptor (some h) = true ∧ 0 = regCode .input ∧
    3 = regCode (.csr .configuration) := ⟨rfl, by decide, rfl, valid_h, rfl, rfl⟩

theorem witness_SetRegisterRule :
    validate .descriptor (withHandle none 0#8 0#8 0#8 []).handle = false ∧ 3 < (4 : Nat) ∧ 0 = regCode .input ∧
    good.handle = some h ∧ validate .descriptor (some h) = true ∧ 1 = csrCode .output ∧
    3 = csrCode .configuration := ⟨rfl, by decide, rfl, rfl, valid_h, rfl, rfl⟩

theorem witness_ResetRegisterRule :
    validate .descriptor (withHandle none 0#8 0#8 0#8 []).handle = false ∧ 3 < (4 : Nat) ∧ 0 = regCode .input ∧
    1 = csrCode .output ∧ 3 = csrCode .configuration := ⟨rfl, by decide, rfl, rfl, rfl⟩

theorem witness_PortReadRule :
    validate .descriptor (withHandle none 0#8 0#8 0#8 []).handle = false ∧ (-1 : Int) < 0 ∧ 7 < (8 : Int) ∧
    good.handle = some h ∧ validate .descriptor (some h) = true ∧ (0 : Int) = ((0 : Port).val : Int) ∧
    (7 : Int) = ((7 : Port).val : Int) := ⟨rfl, by decide, by decide, rfl, valid_h, rfl, rfl⟩

theorem witness_ReadModifyWriteRule :
    validate .descriptor (withHandle none 0#8 0#8 0#8 []).handle = false ∧ (-1 : Int) < 0 ∧ 7 < (8 : Int) ∧
    ((2 : Int) ≠ 0 ∧ (2 : Int) ≠ 1) ∧
    good.handle = some h ∧ validate .descriptor (some h) = true ∧ (0 : Int) = ((0 : Port).val : Int) ∧
    (7 : Int) = ((7 : Port).val : Int) :=
  ⟨rfl, by decide, by decide, by decide, rfl, valid_h, rfl, rfl⟩

theorem witness_ResetRule :
    validate .descriptor (withHandle none 0#8 0#8 0#8 []).handle = false ∧
    good.handle = some h ∧ validate .descriptor (some h) = true := ⟨rfl, rfl, valid_h⟩

theorem witness_RegisterOperationsComplete :
    good.Ready ∧ good.Succeeds 0 ∧ good.board.inputModel = .free := ⟨ready_good, rfl, rfl⟩

theorem witness_PortReadCompletes : good.Ready ∧ good.Succeeds 0 := ⟨ready_good, rfl⟩

theorem witness_PortOperationsComplete :
    good.Ready ∧ good.board.exclusive = true ∧ good.Succeeds 0 ∧ good.Succeeds 1 :=
  ⟨ready_good, rfl, rfl, rfl⟩

theorem witness_ResetCompletes :
    good.board.regIndex = defaultIndex ∧ good.Ready ∧ good.board.exclusive = true ∧ good.Succeeds 0 ∧ good.Succeeds 1 ∧ good.Succeeds 2 :=
  ⟨rfl, ready_good, rfl, rfl, rfl, rfl⟩

theorem witness_PartialReset :
    (from00 [bad true]).Ready ∧ (from00 [bad true]).board.exclusive = true ∧
    (from00 [bad true]).Fails 0 ∧
    (from00 [ok 0#8, bad false]).Succeeds 0 ∧ (from00 [ok 0#8, bad false]).Fails 1 ∧
    (from00 [ok 0#8, ok 0#8, bad true]).Succeeds 0 ∧ (from00 [ok 0#8, ok 0#8, bad true]).Succeeds 1 ∧
    (from00 [ok 0#8, ok 0#8, bad true]).Fails 2 :=
  ⟨ready_from00 _, rfl, rfl, rfl, rfl, rfl, rfl, rfl⟩

/-- `good` with inputs waiting. -/
def waiting (inbox : List Input) : State := { good with inbox := inbox }

theorem witness_SetThenGetRoundTrip :
    (waiting [.call (some h) (.setRegister (csrCode .configuration) 0xFF#8),
      .call (some h) (.getRegister (csrCode .configuration))]).ctrl = .idle ∧
    (waiting []).board.exclusive = true ∧ validate .descriptor (some h) = true ∧
    h.addr = (waiting []).board.targetAddr ∧ (waiting []).Succeeds 0 ∧ (waiting []).Succeeds 1 ∧
    (waiting [.call (some h) (.setRegister (csrCode .configuration) 0xFF#8),
      .call (some h) (.getRegister (csrCode .configuration))]).inbox =
      .call (some h) (.setRegister (csrCode .configuration) 0xFF#8) ::
        .call (some h) (.getRegister (csrCode .configuration)) :: [] :=
  ⟨rfl, rfl, valid_h, rfl, rfl, rfl, rfl⟩

theorem witness_PortOperationsTouchOneBit :
    good.Ready ∧ good.board.exclusive = true ∧ good.Succeeds 0 ∧ good.Succeeds 1 :=
  ⟨ready_good, rfl, rfl, rfl⟩

theorem witness_LostUpdate :
    (∃ t, exec (.portWrite (0 : Port).val (levelRaw .high))
        (shared 0x00#8 [[.write .output 0xF0#8]]) = .next t ∧
      t.returned = some (.operation (.ok .unit))) ∧
    (∃ t, exec (.portPolarity (7 : Port).val (polarityRaw .inverted))
        (shared 0x00#8 [[.write .polarity 0xF0#8]]) = .next t ∧
      t.returned = some (.operation (.ok .unit))) ∧
    (∃ t, exec (.portDirection (7 : Port).val (directionRaw .output))
        (shared 0x00#8 [[.write .configuration 0x0F#8]]) = .next t ∧
      t.returned = some (.operation (.ok .unit))) := ⟨⟨_, rfl, rfl⟩, ⟨_, rfl, rfl⟩, ⟨_, rfl, rfl⟩⟩

/-- `good` found between the read and the write of an operation, keeping the byte 0x80. -/
def between (op : Op) : State := { good with ctrl := .busy op 1 (some 0x80#8) }

theorem witness_ResumedWriteUsesKeptByte (op : Op) :
    (between op).Ready ∧ (between op).board.exclusive = true ∧ (between op).Succeeds 0 ∧
    (between (.portWrite 0 1)).ctrl = .busy (.portWrite (0 : Port).val (levelRaw .high)) 1 (some 0x80#8) ∧
    (between (.portPolarity 7 0)).ctrl = .busy (.portPolarity (7 : Port).val (polarityRaw .original)) 1 (some 0x80#8) ∧
    (between (.portDirection 7 1)).ctrl = .busy (.portDirection (7 : Port).val (directionRaw .input)) 1 (some 0x80#8) :=
  ⟨⟨h, rfl, rfl, rfl⟩, rfl, rfl, rfl, rfl, rfl⟩

/-- A controller found at the start of an operation, with the given handle. -/
def starting (hd : Option Handle) (op : Op) : State :=
  { withHandle hd 0xFF#8 0x00#8 0xFF#8 [] with ctrl := .busy op 0 none }

theorem witness_CallStartsBusy :
    opOf .reset = some .reset ∧ ∃ t, exec .reset good = .next t := ⟨rfl, _, rfl⟩

theorem witness_BusyControllerChecks :
    opOf (.portWrite 8 1) = some (.portWrite 8 1) ∧
    (starting (some h) (.portWrite 8 1)).ctrl = .busy (.portWrite 8 1) 0 none ∧
    (Instr.portWrite 8 1).wellFormed = false ∧
    opOf .reset = some .reset ∧ (starting none .reset).ctrl = .busy .reset 0 none ∧
    validate (starting none .reset).board.busOpen (starting none .reset).handle = false ∧
    Op.reset.next 2 none = .emit (.write .configuration 0xFF#8) :=
  ⟨rfl, rfl, rfl, rfl, rfl, rfl, rfl⟩

theorem witness_FirstFailureEndsOperation :
    Instr.reset.isComposite = true ∧
    ∃ t, exec .reset (from00 [ok 0#8, bad true]) = .next t ∧
      t.returned = some (.operation (.err .transportFailure)) ∧
      ∃ before e, t.bus = (from00 [ok 0#8, bad true]).bus ++ (before ++ e :: []) ∧
        e.byController = true ∧ e.failed = true :=
  ⟨rfl, _, rfl, rfl, [_], _, rfl, rfl, rfl⟩

theorem witness_TransactionCounts :
    Instr.reset.isComposite = true ∧
    (∃ t, exec .reset good = .next t ∧ t.returned = some (.operation (.ok .unit))) ∧
    (∃ t, exec (.portRead 8) good = .next t ∧
      t.returned = some (.operation (.err .invalidArgument))) :=
  ⟨rfl, ⟨_, rfl, rfl⟩, ⟨_, rfl, rfl⟩⟩

theorem witness_PortReadNeverWrites :
    (∃ t, exec (.portRead 7) good = .next t ∧ t.bus.length = 1) ∧
    (∃ t, exec (.portRead 8) good = .next t ∧ t.bus.length = 0) := ⟨⟨_, rfl, rfl⟩, ⟨_, rfl, rfl⟩⟩

theorem witness_ResetWritesInOrder :
    (∃ t, exec .reset good = .next t ∧ t.bus.length = 3) ∧
    (∃ t, exec .reset (from00 [ok 0#8, bad true]) = .next t ∧ t.bus.length = 2) :=
  ⟨⟨_, rfl, rfl⟩, ⟨_, rfl, rfl⟩⟩

theorem witness_OperationsReturn : (Instr.getRegister 4).isComposite = true := rfl

theorem witness_OtherRegistersUnchanged :
    good.board.exclusive = true ∧ transactionsOf (.setRegister 1 0x00#8) ≤ 1 ∧
    Csr.polarity ∉ mayWrite (.portWrite 0 1) ∧ Csr.output ∉ mayWrite (.setRegister 3 0x00#8) ∧
    (∃ t, exec (.portWrite 0 1) good = .next t) ∧ (∃ t, exec (.setRegister 3 0x00#8) good = .next t) :=
  ⟨rfl, by decide, by decide, by decide, ⟨_, rfl⟩, ⟨_, rfl⟩⟩

theorem witness_DirectionOutputDrivesLatch :
    good.Ready ∧ good.board.exclusive = true ∧ good.Succeeds 0 ∧ good.Succeeds 1 ∧
    (7 : Port) ≠ 0 := ⟨ready_good, rfl, rfl, rfl, by decide⟩

theorem witness_StepRunsInstruction :
    (waiting [.frame [0x70#8, 0x01#8, 0xF7#8]]).ctrl = .idle ∧
    (waiting [.frame [0x70#8, 0x01#8, 0xF7#8]]).inbox = [.frame [0x70#8, 0x01#8, 0xF7#8]] ∧
    decode defaultIndex [0x70#8, 0x01#8, 0xF7#8] = .ok (.wrOut 0x38#7 0xF7#8) ∧
    (waiting [.call none .reset]).inbox = [.call none .reset] ∧
    (waiting [.fixedCall .closed .reset]).inbox = [.fixedCall .closed .reset] ∧
    decode (waiting []).board.regIndex (tableBytes 24 0x7001F7) = .ok (.wrOut 0x38#7 0xF7#8) ∧
    (waiting []).board.regIndex = defaultIndex ∧
    decodeTableWord 24 0x7001F7 = some (.wrOut 0x38#7 0xF7#8) :=
  ⟨rfl, rfl, by decide, rfl, rfl, by decide, rfl, by decide⟩

theorem witness_IdleStep :
    good.ctrl = .idle ∧ good.inbox = [] ∧ good.board.exclusive = true ∧
    (shared 0x00#8 []).ctrl = .idle ∧ (shared 0x00#8 []).inbox = [] := ⟨rfl, rfl, rfl, rfl, rfl⟩

theorem witness_PowerCycleRestoresDefaults :
    (waiting [.powerCycle]).ctrl = .idle ∧ (waiting [.powerCycle]).inbox = [.powerCycle] := ⟨rfl, rfl⟩

theorem witness_EnvironmentTurnIssuesItsAccesses :
    good.board.exclusive = true ∧
    (shared 0x00#8 [[.write .output 0xF0#8]]).board.exclusive = false ∧
    (shared 0x00#8 [[.write .output 0xF0#8]]).env.turnAt 0 = [.write .output 0xF0#8] := ⟨rfl, rfl, rfl⟩

theorem witness_StepEndsIdle :
    (∃ t, step (between (.portWrite 0 1)) = .next t) ∧ good.ctrl = .idle := ⟨⟨_, rfl⟩, rfl⟩

/-- The target after power-on on an exclusive board, one call waiting. -/
def fresh : State :=
  { withHandle none 0xFF#8 0x00#8 0xFF#8 [ok 0#8, ok 0#8] with
    inbox := [.call (some h) (.portWrite 7 0)] }

theorem witness_RegistersMatchBusKept : RegistersMatchBus fresh ∧ ∃ t, step fresh = .next t :=
  ⟨fun c => by cases c <;> rfl, _, rfl⟩

theorem witness_ReadsMatchBusKept :
    RegistersMatchBus fresh ∧ ReadsMatchBus fresh ∧ ∃ t, step fresh = .next t :=
  ⟨fun c => by cases c <;> rfl, fun _ _ _ _ _ e => by simp [fresh, withHandle] at e, _, rfl⟩

theorem witness_TrafficLegalKept :
    ControllerTrafficLegal fresh ∧ EnvironmentTrafficLegal fresh ∧ ∃ t, step fresh = .next t :=
  ⟨fun _ e => by simp [fresh, withHandle] at e, fun _ e => by simp [fresh, withHandle] at e, _, rfl⟩

end Sys2Proof.Tests
end

section
/-! The frames of the primitive transactions read back (O1): the two address bytes, the command byte, and
the two formats, then every primitive transaction as a read or a write of one register. -/

namespace Sys2Proof

open Machine

/-! ### The bytes of a frame -/

@[simp] theorem slaveOf_addressByte (a : SlaveAddr) (rw : Bool) : slaveOf (addressByte a rw) = a := by
  ext k hk
  have low : (bitByte rw)[1 + k] = false := by cases rw <;> simp [bitByte]
  simp [slaveOf, addressByte, low, hk, show 1 + k < 8 by omega]

@[simp] theorem isReadByte_addressByte (a : SlaveAddr) (rw : Bool) :
    isReadByte (addressByte a rw) = rw := by
  cases rw <;> simp [isReadByte, addressByte, bitByte]

theorem mem_allRegs (r : Reg) : r ∈ allRegs := by
  obtain _ | ⟨_ | _ | _⟩ := r <;> simp [allRegs]

/-- Distinct command bytes: each selects its own register again (R11, R103). -/
theorem regOfIndex_indexOf {m : RegIndex} (hm : IndexDistinct m) (r : Reg) :
    regOfIndex m (indexOf m r) = some r := by
  cases h : regOfIndex m (indexOf m r) with
  | none => exact absurd (List.find?_eq_none.1 h r (mem_allRegs r)) (by simp)
  | some q => rw [hm q r (by simpa using List.find?_some h)]

theorem selectReg_indexOf {m : RegIndex} (hm : IndexDistinct m) (r : Reg) (mk : Reg → Instr) :
    selectReg m (indexOf m r) mk = .ok (mk r) := by
  simp [selectReg, regOfIndex_indexOf hm]

/-! ### The two formats -/

/-- Format R (R102). -/
theorem decode_readFrame {m : RegIndex} {a : SlaveAddr} (hm : IndexDistinct m)
    (ha : addrInRange a = true) (r : Reg) : decode m (readFrame m a r) = .ok (readInstr a r) := by
  simp [decode, readFrame, decodeRead, ha, selectReg_indexOf hm]

/-- Format W (R101). -/
theorem decode_writeFrame {m : RegIndex} {a : SlaveAddr} (hm : IndexDistinct m)
    (ha : addrInRange a = true) (r : Reg) (v : Byte) :
    decode m (writeFrame m a r v) = .ok (writeInstr a v r) := by
  simp [decode, writeFrame, decodeWrite, ha, selectReg_indexOf hm]

/-! ### The primitive transactions -/

/-- A primitive transaction reads or writes one register (R107). -/
theorem primitive_cases {i : Instr} (h : i.isComposite = false) :
    (∃ a r, i = readInstr a r) ∨ ∃ a v r, i = writeInstr a v r := by
  cases i with
  | rdIn a => exact .inl ⟨a, .input, rfl⟩
  | rdOut a => exact .inl ⟨a, .csr .output, rfl⟩
  | rdPol a => exact .inl ⟨a, .csr .polarity, rfl⟩
  | rdCfg a => exact .inl ⟨a, .csr .configuration, rfl⟩
  | wrOut a v => exact .inr ⟨a, v, .csr .output, rfl⟩
  | wrPol a v => exact .inr ⟨a, v, .csr .polarity, rfl⟩
  | wrCfg a v => exact .inr ⟨a, v, .csr .configuration, rfl⟩
  | wrIn a v => exact .inr ⟨a, v, .input, rfl⟩
  | getRegister _ | setRegister _ _ | resetRegister _ | portRead _ | portWrite _ _
  | portPolarity _ _ | portDirection _ _ | reset => cases h

@[simp] theorem encode_readInstr (m : RegIndex) (a : SlaveAddr) (r : Reg) :
    encode m (readInstr a r) = some (readFrame m a r) := by
  obtain _ | ⟨_ | _ | _⟩ := r <;> rfl

@[simp] theorem encode_writeInstr (m : RegIndex) (a : SlaveAddr) (v : Byte) (r : Reg) :
    encode m (writeInstr a v r) = some (writeFrame m a r v) := by
  obtain _ | ⟨_ | _ | _⟩ := r <;> rfl

@[simp] theorem wellFormed_readInstr (a : SlaveAddr) (r : Reg) :
    (readInstr a r).wellFormed = addrInRange a := by
  obtain _ | ⟨_ | _ | _⟩ := r <;> rfl

@[simp] theorem wellFormed_writeInstr (a : SlaveAddr) (v : Byte) (r : Reg) :
    (writeInstr a v r).wellFormed = addrInRange a := by
  obtain _ | ⟨_ | _ | _⟩ := r <;> rfl

/-- Settles O1: the transaction is a read or a write, and the frame of its format reads back. -/
theorem decodeEncodeRoundTrip : Obligations.DecodeEncodeRoundTrip := by
  intro m i hm hwf hprim
  obtain ⟨a, r, rfl⟩ | ⟨a, v, r, rfl⟩ := primitive_cases hprim
  · exact ⟨_, encode_readInstr m a r, decode_readFrame hm (by simpa using hwf) r⟩
  · exact ⟨_, encode_writeInstr m a v r, decode_writeFrame hm (by simpa using hwf) r v⟩

end Sys2Proof
end

section
/-! Every run of an operation that is not stuck reaches its result (O42, O50): the moves an operation
makes, the frame of a call, and what a step finds to do. -/

namespace Sys2Proof.Machine

/-! ### The moves of an operation -/

/-- No operation has a move after its first four (R411). -/
theorem next_late (op : Op) (k : Nat) (rd : Option Byte) : op.next (k + opMoves) rd = .stuck := by
  obtain h | ⟨q, h⟩ | ⟨n, h⟩ | ⟨c, v, h⟩ | ⟨c, n, x, h⟩ | h := next_shape op <;> rw [h] <;> rfl

theorem next_step_lt {op : Op} {step : Nat} {rd : Option Byte} (h : op.next step rd ≠ .stuck) :
    step < opMoves := by
  by_contra hlt
  obtain ⟨k, rfl⟩ := Nat.exists_eq_add_of_le' (Nat.le_of_not_lt hlt)
  exact h (next_late op k rd)

/-- An operation knows what to do with the byte of a read it issued. -/
theorem next_after_read {op : Op} {step : Nat} {rd : Option Byte} {r : Reg}
    (h : op.next step rd = .emit (.read r)) (d : Byte) : op.next (step + 1) (some d) ≠ .stuck := by
  obtain e | ⟨q, e⟩ | ⟨n, e⟩ | ⟨c, v, e⟩ | ⟨c, n, x, e⟩ | e := next_shape op <;> rw [e] at h ⊢
  · unfold nextRejected at h; split at h <;> cases h
  · unfold nextGet at h; split at h <;> cases h; exact nofun
  · unfold nextPortRead at h; split at h <;> cases h; exact nofun
  · unfold nextSet at h; split at h <;> cases h
  · unfold nextRmw at h; split at h <;> cases h; exact nofun
  · unfold nextReset at h; split at h <;> cases h

/-- An operation knows what to do after a write it issued. -/
theorem next_after_write {op : Op} {step : Nat} {rd : Option Byte} {c : Csr} {v : Byte}
    (h : op.next step rd = .emit (.write c v)) : op.next (step + 1) rd ≠ .stuck := by
  obtain e | ⟨q, e⟩ | ⟨n, e⟩ | ⟨c', v', e⟩ | ⟨c', n, x, e⟩ | e := next_shape op <;> rw [e] at h ⊢
  · unfold nextRejected at h; split at h <;> cases h
  · unfold nextGet at h; split at h <;> cases h
  · unfold nextPortRead at h; split at h <;> cases h
  · unfold nextSet at h; split at h <;> cases h; exact nofun
  · unfold nextRmw at h; split at h <;> cases h; exact nofun
  · unfold nextReset at h; split at h <;> cases h <;> exact nofun

/-! ### A run reaches its result -/

/-- The controller is idle and an operation's result has been handed back (R43, R300). -/
def State.Completed (s : State) : Prop := s.ctrl = .idle ∧ ∃ r, s.returned = some (.operation r)

theorem complete_completed (r : Result) (s : State) : (s.complete r).Completed := ⟨rfl, r, rfl⟩

/-- A run that is not stuck and has its remaining moves left to it completes: each transaction either
ends it or leads to a position that is not stuck. -/
theorem runOp_completed {n : Nat} {op : Op} {step : Nat} {rd : Option Byte} (s : State)
    (hnext : op.next step rd ≠ .stuck) (hmoves : opMoves ≤ step + n) :
    (runOp n op step rd s).Completed := by
  induction n generalizing step rd s with
  | zero => exact absurd (next_step_lt hnext) (by omega)
  | succ n ih =>
    cases h : op.next step rd with
    | stuck => exact absurd h hnext
    | reject => rw [runOp_reject s h]; exact complete_completed _ _
    | finish v => rw [runOp_finish s h]; exact complete_completed _ _
    | emit acc =>
      cases hv : s.slave with
      | none => rw [runOp_invalid h hv]; exact complete_completed _ _
      | some a =>
        obtain ht | ⟨r, d, rfl, ht⟩ | ⟨c, v, rfl, ht⟩ :=
          transact_answer .controller a acc (turnBefore step s)
        · rw [runOp_fail h hv (Prod.ext rfl ht)]; exact complete_completed _ _
        · rw [runOp_data h hv (Prod.ext rfl ht)]
          exact ih _ (next_after_read h d) (by omega)
        · rw [runOp_done h hv (Prod.ext rfl ht)]
          exact ih _ (next_after_write h) (by omega)

theorem callOp_completed (op : Op) (s : State) : (callOp op s).Completed := by
  refine runOp_completed _ ?_ (by omega)
  obtain h | ⟨acc, h⟩ := next_zero op none <;> rw [h] <;> exact nofun

/-! ### What a call leaves -/

/-- What lies outside an operation is as before, and the log has only grown (R46, R310). -/
structure CallFrame (s t : State) : Prop where
  handle : t.handle = s.handle
  inbox : t.inbox = s.inbox
  board : t.board = s.board
  bus : s.bus <+: t.bus

theorem CallFrame.trans {s t u : State} (hst : CallFrame s t) (htu : CallFrame t u) : CallFrame s u :=
  ⟨htu.handle.trans hst.handle, htu.inbox.trans hst.inbox, htu.board.trans hst.board,
    hst.bus.trans htu.bus⟩

theorem transact_callFrame (ag : Agent) (a : SlaveAddr) (acc : Access) (s : State) :
    CallFrame s (transact ag a acc s).1 := by
  obtain ⟨-, hhandle, -, hinbox, hboard⟩ := transact_frame ag a acc s
  obtain ⟨landed, hbus⟩ := transact_bus ag a acc s
  exact ⟨hhandle, hinbox, hboard, _, hbus.symm⟩

theorem environmentTurn_callFrame (s : State) : CallFrame s (environmentTurn s) := by
  obtain ⟨evs, hbus, -⟩ := environmentTurn_bus s
  exact ⟨environmentTurn_handle s, environmentTurn_inbox s, environmentTurn_board s,
    evs, hbus.symm⟩

theorem callOp_callFrame (op : Op) (s : State) : CallFrame s (callOp op s) :=
  callOp_keeps (P := CallFrame s)
    (fun _ _ h => ⟨h.handle, h.inbox, h.board, h.bus⟩)
    (fun _ _ h => ⟨h.handle, h.inbox, h.board, h.bus⟩)
    (fun t h => h.trans (environmentTurn_callFrame t))
    (fun t a acc _ h => h.trans (transact_callFrame .controller a acc t))
    op s ⟨rfl, rfl, rfl, [], s.bus.append_nil⟩

/-! ### The meaning of an instruction -/

/-- A composite instruction is the call of its operation (R110). -/
theorem exec_composite {i : Instr} (h : i.isComposite = true) :
    ∃ op, opOf i = some op ∧ ∀ s, exec i s = .next (callOp op s) := by
  cases i with
  | rdIn _ | rdOut _ | rdPol _ | rdCfg _ | wrOut _ _ | wrPol _ _ | wrCfg _ _ | wrIn _ _ => cases h
  | getRegister _ | setRegister _ _ | resetRegister _ | portRead _ | portWrite _ _
  | portPolarity _ _ | portDirection _ _ | reset => exact ⟨_, rfl, fun _ => rfl⟩

/-- Settles O42: the call of the operation completes, and its frame is a call's. -/
theorem operationsReturn : Obligations.OperationsReturn := by
  intro i s hi
  obtain ⟨op, -, hexec⟩ := exec_composite hi
  obtain ⟨hidle, r, hret⟩ := callOp_completed op s
  have hframe := callOp_callFrame op s
  exact ⟨_, r, hexec s, hidle, hret, hframe.handle, hframe.inbox, hframe.board, hframe.bus⟩

/-- The meaning of a read is its transaction (R144 to R147). -/
theorem exec_readInstr (a : SlaveAddr) (r : Reg) (s : State) :
    exec (readInstr a r) s = .next (direct a (.read r) s) := by
  obtain _ | ⟨_ | _ | _⟩ := r <;> rfl

/-- The meaning of a write of a writable register is its transaction (R148 to R150). -/
theorem exec_writeInstr_csr (a : SlaveAddr) (v : Byte) (c : Csr) (s : State) :
    exec (writeInstr a v (.csr c)) s = .next (direct a (.write c v) s) := by
  cases c <;> rfl

/-- WR.IN at the target (R151). -/
theorem exec_wrIn_target {a : SlaveAddr} (v : Byte) {s : State} (h : a = s.board.targetAddr) :
    exec (.wrIn a v) s = .refused .writeToInput := if_pos h

/-- WR.IN at any other address fails on the bus (R143). -/
theorem exec_wrIn_elsewhere {a : SlaveAddr} (v : Byte) {s : State} (h : a ≠ s.board.targetAddr) :
    exec (.wrIn a v) s =
      .next (directUnanswered a (.bytes (writeFrame s.board.regIndex a .input v)) s) := if_neg h

@[simp] theorem direct_ctrl (a : SlaveAddr) (acc : Access) (s : State) :
    (direct a acc s).ctrl = s.ctrl := (transact_frame .direct a acc s).1

@[simp] theorem directUnanswered_ctrl (a : SlaveAddr) (rq : Request) (s : State) :
    (directUnanswered a rq s).ctrl = s.ctrl := rfl

/-- Everything an instruction can do: call an operation, make or fail a primitive transaction, or be
refused as WR.IN at the target. -/
theorem exec_cases (i : Instr) (s : State) :
    (∃ op, exec i s = .next (callOp op s)) ∨
    (∃ a acc, exec i s = .next (direct a acc s)) ∨
    (∃ a rq, exec i s = .next (directUnanswered a rq s)) ∨
    exec i s = .refused .writeToInput := by
  cases hi : i.isComposite with
  | true =>
    obtain ⟨op, -, h⟩ := exec_composite hi
    exact .inl ⟨op, h s⟩
  | false =>
    obtain ⟨a, r, rfl⟩ | ⟨a, v, _ | c, rfl⟩ := primitive_cases hi
    · exact .inr (.inl ⟨a, _, exec_readInstr a r s⟩)
    · by_cases ha : a = s.board.targetAddr
      · exact .inr (.inr (.inr (exec_wrIn_target v ha)))
      · exact .inr (.inr (.inl ⟨a, _, exec_wrIn_elsewhere v ha⟩))
    · exact .inr (.inl ⟨a, _, exec_writeInstr_csr a v c s⟩)

/-! ### The step -/

/-- What a step does before the other agents' turn, by what it finds: a busy controller, an empty inbox,
an instruction, a frame that is none, or a power cycle. -/
inductive Work (s : State) : Host.Outcome State Fault Refusal → Prop where
  | resume {op : Op} {k : Nat} {rd : Option Byte} (hctrl : s.ctrl = .busy op k rd) :
      Work s (resumeOp op k rd s)
  | nothing (hctrl : s.ctrl = .idle) (hinbox : s.inbox = []) : Work s (.next s)
  | instr (hctrl : s.ctrl = .idle) (i : Instr) (rest : List Input) (h : Option Handle) :
      Work s (exec i { s with inbox := rest, handle := h })
  | reject (hctrl : s.ctrl = .idle) (e : FrameError) (bs : List Byte) (rest : List Input) :
      Work s (rejectFrame e bs { s with inbox := rest })
  | power (hctrl : s.ctrl = .idle) (rest : List Input) :
      Work s (.next (powerCycle { s with inbox := rest }))

/-- A step is its work, then the other agents' turn (R83, R85). -/
theorem step_work (s : State) : ∃ o, Work s o ∧ step s = settle o := by
  cases hctrl : s.ctrl with
  | busy op k rd => exact ⟨_, .resume hctrl, by simp [step, fetch, hctrl]⟩
  | idle =>
    cases hinbox : s.inbox with
    | nil => exact ⟨_, .nothing hctrl hinbox, by simp [step, fetch, hctrl, hinbox]⟩
    | cons input rest =>
      cases input with
      | call h i => exact ⟨_, .instr hctrl i rest h, by simp [step, fetch, hctrl, hinbox]⟩
      | fixedCall bus i =>
        exact ⟨_, .instr hctrl i rest (some (fixedHandle bus s)), by simp [step, fetch, hctrl, hinbox]⟩
      | frame bs =>
        cases hdec : decode s.board.regIndex bs with
        | ok i =>
          exact ⟨_, .instr hctrl i rest s.handle, by simp [step, fetch, fetchFrame, hctrl, hinbox, hdec]⟩
        | error e =>
          exact ⟨_, .reject hctrl e bs rest, by simp [step, fetch, fetchFrame, hctrl, hinbox, hdec]⟩
      | powerCycle => exact ⟨_, .power hctrl rest, by simp [step, fetch, hctrl, hinbox]⟩

theorem settle_eq_next {o : Host.Outcome State Fault Refusal} {t : State} :
    settle o = .next t ↔ ∃ u, o = .next u ∧ environmentTurn u = t := by
  cases o <;> simp [settle]

theorem settle_eq_fault {o : Host.Outcome State Fault Refusal} {f : Fault} :
    settle o = .fault f ↔ o = .fault f := by
  cases o <;> simp [settle]

/-! ### The controller after a step -/

/-- An outcome that is no fault and, where it goes on, leaves the controller idle. -/
def EndsIdle : Host.Outcome State Fault Refusal → Prop
  | .next t => t.ctrl = .idle
  | .fault _ => False
  | .refused _ => True

theorem exec_endsIdle (i : Instr) {s : State} (hs : s.ctrl = .idle) : EndsIdle (exec i s) := by
  obtain ⟨op, h⟩ | ⟨a, acc, h⟩ | ⟨a, rq, h⟩ | h := exec_cases i s <;> rw [h]
  · exact (callOp_completed op s).1
  · exact (direct_ctrl a acc s).trans hs
  · exact hs
  · trivial

theorem rejectFrame_endsIdle (e : FrameError) (bs : List Byte) {s : State} (hs : s.ctrl = .idle) :
    EndsIdle (rejectFrame e bs s) := by
  unfold rejectFrame
  split
  · trivial
  · split
    · trivial
    · exact hs

/-- A busy controller is run on to its result, unless no operation passes through its position. -/
theorem resumeOp_cases (op : Op) (k : Nat) (rd : Option Byte) (s : State) :
    (op.next k rd = .stuck ∧ resumeOp op k rd s = .fault .controllerStuck) ∨
    (op.next k rd ≠ .stuck ∧ resumeOp op k rd s = .next (runOp opMoves op k rd s)) := by
  cases h : op.next k rd <;> simp [resumeOp, h]

/-- The work of a step ends idle, or is the fault of a busy controller. -/
theorem Work.endsIdle {s : State} {o : Host.Outcome State Fault Refusal} (hwork : Work s o) :
    EndsIdle o ∨ (s.ctrl ≠ .idle ∧ ∃ f, o = .fault f) := by
  cases hwork with
  | @resume op k rd hctrl =>
    obtain ⟨-, h⟩ | ⟨hnext, h⟩ := resumeOp_cases op k rd s <;> rw [h]
    · exact .inr ⟨by simp [hctrl], _, rfl⟩
    · exact .inl (runOp_completed s hnext (by omega)).1
  | nothing hctrl _ => exact .inl hctrl
  | instr hctrl i rest h => exact .inl (exec_endsIdle i (by exact hctrl))
  | reject hctrl e bs rest => exact .inl (rejectFrame_endsIdle e bs (by exact hctrl))
  | power hctrl rest => exact .inl hctrl

/-- A step keeps the parameters (R13). -/
theorem step_board {s t : State} (h : step s = .next t) : t.board = s.board :=
  step_keeps (P := fun u => u.board = s.board)
    (fun _ _ h => h) (fun _ _ _ h => h) (fun _ _ h => h) (fun _ _ h => h) (fun _ h => h)
    (fun _ _ _ h => h) (fun _ h => h)
    (fun u ag a acc _ _ h => (transact_callFrame ag a acc u).board.trans h) rfl h

/-- Settles O50: the parameters are kept by every part of a step, and its work ends idle. -/
theorem stepEndsIdle : Obligations.StepEndsIdle := by
  intro s
  obtain ⟨o, hwork, hstep⟩ := step_work s
  refine ⟨fun t ht => ⟨step_board ht, ?_⟩, fun hidle f hf => ?_⟩
  · obtain ⟨u, rfl, rfl⟩ := settle_eq_next.1 (hstep.symm.trans ht)
    obtain hu | ⟨-, _, h⟩ := hwork.endsIdle
    · exact (environmentTurn_ctrl u).trans hu
    · cases h
  · obtain rfl := settle_eq_fault.1 (hstep.symm.trans hf)
    obtain h | ⟨hbusy, -⟩ := hwork.endsIdle
    · exact h
    · exact hbusy hidle

/-! ### Reset -/

/-- Settles O45: the three registers start at their defaults, the controller idle. -/
theorem powerOnState : Obligations.PowerOnState := ⟨rfl, rfl, rfl, rfl⟩

/-- Settles O58: the parameters at reset are the specification's defaults. -/
theorem parameterDefaults : Obligations.ParameterDefaults := ⟨rfl, rfl, rfl, rfl⟩

end Sys2Proof.Machine
end

section
/-! No step reveals the command pointer (O55): a transaction at the target latches the pointer anew
without reading it, so the states that differ in the pointer alone stay such through every part of a
step. -/

namespace Sys2Proof.Machine

/-! ### States that differ in the command pointer alone -/

/-- `t` is `s` up to the command pointer (R41). -/
def SameButCmd (s t : State) : Prop := ∃ c, t = s.withCmd c

theorem SameButCmd.refl (s : State) : SameButCmd s s := ⟨s.target.cmd, rfl⟩

@[simp] theorem withCmd_env (c : Byte) (s : State) : (s.withCmd c).env = s.env := rfl

@[simp] theorem withCmd_board (c : Byte) (s : State) : (s.withCmd c).board = s.board := rfl

theorem SameButCmd.withCtrl {s t : State} (h : SameButCmd s t) (ctrl : Ctrl) :
    SameButCmd { s with ctrl := ctrl } { t with ctrl := ctrl } := by
  obtain ⟨c, rfl⟩ := h
  exact ⟨c, rfl⟩

theorem SameButCmd.complete {s t : State} (h : SameButCmd s t) (r : Result) :
    SameButCmd (s.complete r) (t.complete r) := by
  obtain ⟨c, rfl⟩ := h
  exact ⟨c, rfl⟩

theorem SameButCmd.answered {s t : State} (h : SameButCmd s t) (a : Answer) :
    SameButCmd (s.answered a) (t.answered a) := by
  obtain ⟨c, rfl⟩ := h
  exact ⟨c, rfl⟩

theorem SameButCmd.slave {s t : State} (h : SameButCmd s t) : t.slave = s.slave := by
  obtain ⟨c, rfl⟩ := h
  rfl

/-! ### Transactions and turns -/

/-- The byte of a read does not depend on the pointer (R140, R144). -/
theorem readValue_withCmd (r : Reg) (d : Draw) (e : Env) (c : Byte) (s : State) :
    readValue r d { s.withCmd c with env := e } = readValue r d { s with env := e } := by
  cases r with
  | input => rfl
  | csr r => exact point_reg s.target c r

/-- At the target every transaction latches the pointer anew, so the one before it is lost. -/
theorem transact_withCmd_target {ag : Agent} {a : SlaveAddr} {acc : Access} {s : State} (c : Byte)
    (h : a = s.board.targetAddr) : transact ag a acc (s.withCmd c) = transact ag a acc s := by
  cases acc with
  | read r =>
    cases hd : (s.env.drawAt 0).fail with
    | false =>
      simp only [transact_read, busRead_ok h hd, busRead_ok (s := s.withCmd c) h hd,
        withCmd_env, readValue_withCmd]
      rfl
    | true =>
      simp only [transact_read, busRead_fails h hd, busRead_fails (s := s.withCmd c) h hd]
      rfl
  | write r v =>
    cases hd : (s.env.drawAt 0).fail with
    | false =>
      simp only [transact_write, busWrite_ok h hd, busWrite_ok (s := s.withCmd c) h hd]
      rfl
    | true =>
      simp only [transact_write, busWrite_fails h hd, busWrite_fails (s := s.withCmd c) h hd]
      rfl

theorem transact_sameButCmd {s t : State} (ag : Agent) (a : SlaveAddr) (acc : Access)
    (h : SameButCmd s t) :
    SameButCmd (transact ag a acc s).1 (transact ag a acc t).1 ∧
      (transact ag a acc t).2 = (transact ag a acc s).2 := by
  obtain ⟨c, rfl⟩ := h
  by_cases ha : a = s.board.targetAddr
  · rw [transact_withCmd_target c ha]
    exact ⟨.refl _, rfl⟩
  · rw [transact_elsewhere ha, transact_elsewhere (s := s.withCmd c) ha]
    exact ⟨⟨c, rfl⟩, rfl⟩

theorem environmentAccess_sameButCmd {s t : State} (acc : Access) (h : SameButCmd s t) :
    SameButCmd (environmentAccess s acc) (environmentAccess t acc) := by
  have hsame := (transact_sameButCmd .environment s.board.targetAddr acc h).1
  obtain ⟨c, rfl⟩ := h
  exact hsame

theorem foldl_environmentAccess_sameButCmd {s t : State} (accs : List Access)
    (h : SameButCmd s t) :
    SameButCmd (accs.foldl environmentAccess s) (accs.foldl environmentAccess t) := by
  induction accs generalizing s t with
  | nil => exact h
  | cons acc accs ih => exact ih (environmentAccess_sameButCmd acc h)

theorem environmentTurn_sameButCmd {s t : State} (h : SameButCmd s t) :
    SameButCmd (environmentTurn s) (environmentTurn t) := by
  obtain ⟨c, rfl⟩ := h
  cases hx : s.board.exclusive with
  | true =>
    rw [environmentTurn_exclusive hx, environmentTurn_exclusive (s := s.withCmd c) hx]
    exact ⟨c, rfl⟩
  | false =>
    simp only [environmentTurn, withCmd_board, withCmd_env, hx]
    exact foldl_environmentAccess_sameButCmd _ ⟨c, rfl⟩

theorem turnBefore_sameButCmd {s t : State} (step : Nat) (h : SameButCmd s t) :
    SameButCmd (turnBefore step s) (turnBefore step t) := by
  cases step with
  | zero => exact h
  | succ k => exact environmentTurn_sameButCmd h

/-! ### Runs and instructions -/

/-- The two runs make the same moves: what comes next depends on the bytes read, and these agree. -/
theorem runOp_sameButCmd {s t : State} (n : Nat) (op : Op) (step : Nat) (rd : Option Byte)
    (h : SameButCmd s t) : SameButCmd (runOp n op step rd s) (runOp n op step rd t) := by
  induction n generalizing step rd s t with
  | zero => exact h
  | succ n ih =>
    cases hnext : op.next step rd with
    | stuck => simpa [runOp, hnext] using h
    | reject => rw [runOp_reject s hnext, runOp_reject t hnext]; exact h.complete _
    | finish v => rw [runOp_finish s hnext, runOp_finish t hnext]; exact h.complete _
    | emit acc =>
      cases hv : s.slave with
      | none =>
        rw [runOp_invalid hnext hv, runOp_invalid hnext (h.slave.trans hv)]
        exact h.complete _
      | some a =>
        have hv' := h.slave.trans hv
        obtain ⟨hstate, hans⟩ :=
          transact_sameButCmd .controller a acc (turnBefore_sameButCmd step h)
        cases e : (transact .controller a acc (turnBefore step s)).2 with
        | fail =>
          rw [runOp_fail hnext hv (Prod.ext rfl e), runOp_fail hnext hv' (Prod.ext rfl (hans.trans e))]
          exact hstate.complete _
        | data d =>
          rw [runOp_data hnext hv (Prod.ext rfl e), runOp_data hnext hv' (Prod.ext rfl (hans.trans e))]
          exact ih _ _ (hstate.withCtrl _)
        | done =>
          rw [runOp_done hnext hv (Prod.ext rfl e), runOp_done hnext hv' (Prod.ext rfl (hans.trans e))]
          exact ih _ _ (hstate.withCtrl _)

/-- Outcomes that agree up to the command pointer of the state they answer. -/
inductive SameOutcome :
    Host.Outcome State Fault Refusal → Host.Outcome State Fault Refusal → Prop where
  | next {s t : State} (h : SameButCmd s t) : SameOutcome (.next s) (.next t)
  | fault (f : Fault) : SameOutcome (.fault f) (.fault f)
  | refused (r : Refusal) : SameOutcome (.refused r) (.refused r)

theorem SameOutcome.forgetCmd_eq {o o' : Host.Outcome State Fault Refusal} (h : SameOutcome o o') :
    forgetCmd o' = forgetCmd o := by
  cases h with
  | next h => obtain ⟨c, rfl⟩ := h; rfl
  | fault f => rfl
  | refused r => rfl

theorem SameOutcome.settle {o o' : Host.Outcome State Fault Refusal} (h : SameOutcome o o') :
    SameOutcome (settle o) (settle o') := by
  cases h with
  | next h => exact .next (environmentTurn_sameButCmd h)
  | fault f => exact .fault f
  | refused r => exact .refused r

theorem direct_sameButCmd {s t : State} (a : SlaveAddr) (acc : Access) (h : SameButCmd s t) :
    SameButCmd (direct a acc s) (direct a acc t) := by
  obtain ⟨hstate, hans⟩ := transact_sameButCmd .direct a acc h
  rw [direct, direct, hans]
  exact hstate.answered _

theorem exec_sameOutcome {s t : State} (i : Instr) (h : SameButCmd s t) :
    SameOutcome (exec i s) (exec i t) := by
  cases hi : i.isComposite with
  | true =>
    obtain ⟨op, -, hexec⟩ := exec_composite hi
    rw [hexec, hexec]
    exact .next (runOp_sameButCmd _ _ _ _ (h.withCtrl _))
  | false =>
    obtain ⟨a, r, rfl⟩ | ⟨a, v, _ | c, rfl⟩ := primitive_cases hi
    · rw [exec_readInstr, exec_readInstr]
      exact .next (direct_sameButCmd a _ h)
    · obtain ⟨c, rfl⟩ := h
      by_cases ha : a = s.board.targetAddr
      · rw [writeInstr, exec_wrIn_target v ha, exec_wrIn_target (s := s.withCmd c) v ha]
        exact .refused _
      · rw [writeInstr, exec_wrIn_elsewhere v ha, exec_wrIn_elsewhere (s := s.withCmd c) v ha]
        exact .next ⟨c, rfl⟩
    · rw [exec_writeInstr_csr, exec_writeInstr_csr]
      exact .next (direct_sameButCmd a _ h)

theorem resumeOp_sameOutcome {s t : State} (op : Op) (k : Nat) (rd : Option Byte)
    (h : SameButCmd s t) : SameOutcome (resumeOp op k rd s) (resumeOp op k rd t) := by
  unfold resumeOp
  split
  · exact .fault _
  all_goals exact .next (runOp_sameButCmd _ _ _ _ h)

theorem rejectFrame_sameOutcome {s t : State} (e : FrameError) (bs : List Byte)
    (h : SameButCmd s t) : SameOutcome (rejectFrame e bs s) (rejectFrame e bs t) := by
  obtain ⟨c, rfl⟩ := h
  cases bs with
  | nil => exact .refused _
  | cons b bs =>
    by_cases hb : slaveOf b = s.board.targetAddr
    · simp only [rejectFrame, withCmd_board, hb, ↓reduceIte]
      exact .refused _
    · simp only [rejectFrame, withCmd_board, hb, ↓reduceIte]
      exact .next ⟨c, rfl⟩

/-! ### The step -/

/-- What a step finds to do does not depend on the pointer, and neither does what it then does. -/
theorem step_sameOutcome (c : Byte) (s : State) : SameOutcome (step s) (step (s.withCmd c)) := by
  obtain ⟨target, ctrl, env, handle, returned, inbox, bus, board⟩ := s
  cases ctrl with
  | busy op k rd => exact (resumeOp_sameOutcome op k rd ⟨c, rfl⟩).settle
  | idle =>
    cases inbox with
    | nil => exact (SameOutcome.next ⟨c, rfl⟩).settle
    | cons input rest =>
      cases input with
      | call h i => exact (exec_sameOutcome i ⟨c, rfl⟩).settle
      | fixedCall bus i => exact (exec_sameOutcome i ⟨c, rfl⟩).settle
      | frame bs =>
        cases hdec : decode board.regIndex bs with
        | ok i =>
          simp only [step, fetch, fetchFrame, State.withCmd, hdec]
          exact (exec_sameOutcome i ⟨c, rfl⟩).settle
        | error e =>
          simp only [step, fetch, fetchFrame, State.withCmd, hdec]
          exact (rejectFrame_sameOutcome e bs ⟨c, rfl⟩).settle
      | powerCycle => exact (SameOutcome.next (.refl _)).settle

/-- Settles O55: the outcomes agree up to the pointer, which `forgetCmd` removes. -/
theorem commandPointerUnobservable : Obligations.CommandPointerUnobservable :=
  fun s c => (step_sameOutcome c s).forgetCmd_eq

end Sys2Proof.Machine
end

section
/-! A controller found busy (O37, O56, O57): its step runs the operation on from where it stands, with the
checks, the handle and the byte of that position. -/

namespace Sys2Proof.Machine

/-! ### Running on -/

/-- A busy controller's step runs its operation on, then the other agents have their turn (R43). -/
theorem step_busy {s : State} {op : Op} {k : Nat} {rd : Option Byte} (hctrl : s.ctrl = .busy op k rd)
    (hnext : op.next k rd ≠ .stuck) :
    step s = .next (environmentTurn (runOp opMoves op k rd s)) := by
  obtain ⟨h, -⟩ | ⟨-, h⟩ := resumeOp_cases op k rd s
  · exact absurd h hnext
  · simp [step, fetch, hctrl, h, settle]

/-- An instruction that has an operation is its call (R110). -/
theorem exec_of_opOf {i : Instr} {op : Op} (h : opOf i = some op) (s : State) :
    exec i s = .next (callOp op s) := by
  cases i with
  | rdIn _ | rdOut _ | rdPol _ | rdCfg _ | wrOut _ _ | wrPol _ _ | wrCfg _ _ | wrIn _ _ => cases h
  | getRegister _ | setRegister _ _ | resetRegister _ | portRead _ | portWrite _ _
  | portPolarity _ _ | portDirection _ _ | reset => cases h; rfl

/-- Settles O56: the call is by definition the run from `Busy(op, 0, none)`, which is not stuck. -/
theorem callStartsBusy : Obligations.CallStartsBusy := by
  intro i op s t hop hexec
  have hnext : op.next 0 none ≠ .stuck := by
    obtain h | ⟨acc, h⟩ := next_zero op none <;> rw [h] <;> exact nofun
  obtain rfl : callOp op s = t := by simpa [exec_of_opOf hop] using hexec
  exact step_busy rfl hnext

/-! ### The checks of operands -/

theorem regOfCode_eq_none {r : Nat} (h : regCodeOk r = false) : regOfCode r = none :=
  regOfCode_large (by simpa [regCodeOk] using h)

theorem csrOfCode_eq_none {r : Nat} (h : csrCodeOk r = false) : csrOfCode r = none := by
  obtain rfl | hr : r = 0 ∨ 3 < r := by simp [csrCodeOk] at h; omega
  · rfl
  · exact csrOfCode_large hr

theorem portOf_eq_none {p : Int} (h : portOk p = false) : portOf p = none :=
  portOf_outside (by simp [portOk] at h; omega)

/-- A port operation's operands fail when its port or its value does (R204, R205). -/
theorem portAndBit_eq_none {p x : Int} {bit : Option Bool} (h : (portOk p && valueOk x) = false)
    (hbit : x ≠ 0 → x ≠ 1 → bit = none) : portAndBit p bit = none := by
  obtain hp | hx := Bool.and_eq_false_iff.1 h
  · exact portAndBit_none_left bit (portOf_eq_none hp)
  · obtain ⟨h0, h1⟩ : x ≠ 0 ∧ x ≠ 1 := by simpa [valueOk] using hx
    rw [hbit h0 h1, portAndBit_none_right]

/-- An operation whose row does not admit its operands starts by rejecting them (R173, R301). -/
theorem next_zero_of_illFormed {i : Instr} {op : Op} (hop : opOf i = some op)
    (hwf : i.wellFormed = false) (rd : Option Byte) : op.next 0 rd = .reject := by
  cases i with
  | rdIn _ | rdOut _ | rdPol _ | rdCfg _ | wrOut _ _ | wrPol _ _ | wrCfg _ _ | wrIn _ _ => cases hop
  | getRegister r => cases hop; simp only [Op.next, regOfCode_eq_none hwf]; rfl
  | setRegister r v => cases hop; simp only [Op.next, csrOfCode_eq_none hwf]; rfl
  | resetRegister r => cases hop; simp only [Op.next, csrOfCode_eq_none hwf]; rfl
  | portRead p => cases hop; simp only [Op.next, portOf_eq_none hwf]; rfl
  | portWrite p l =>
    cases hop
    rw [Op.next, portAndBit_eq_none hwf fun h0 h1 => by rw [levelOfRaw_other h0 h1]; rfl]
    rfl
  | portPolarity p q =>
    cases hop
    rw [Op.next, portAndBit_eq_none hwf fun h0 h1 => by rw [polarityOfRaw_other h0 h1]; rfl]
    rfl
  | portDirection p d =>
    cases hop
    rw [Op.next, portAndBit_eq_none hwf fun h0 h1 => by rw [directionOfRaw_other h0 h1]; rfl]
    rfl
  | reset => cases hwf

/-- Settles O57: the run's next move is to reject an operand, or a transaction for which there is no
valid handle; either way it raises InvalidArgument at once. -/
theorem busyControllerChecks : Obligations.BusyControllerChecks := by
  intro i op k rd s hop hctrl hbad
  have hmove : op.next k rd = .reject ∨ s.slave = none ∧ ∃ acc, op.next k rd = .emit acc := by
    obtain ⟨hwf, rfl⟩ | ⟨hv, rfl | hemit⟩ := hbad
    · exact .inl (next_zero_of_illFormed hop hwf rd)
    · exact (next_zero op rd).imp_right fun hemit => ⟨slave_invalid hv, hemit⟩
    · exact .inr ⟨slave_invalid hv, hemit⟩
  obtain hreject | ⟨hslave, acc, hemit⟩ := hmove
  · rw [step_busy hctrl (by simp [hreject]), opMoves, runOp_reject s hreject]
    rfl
  · rw [step_busy hctrl (by simp [hemit]), opMoves, runOp_invalid hemit hslave]
    rfl

/-! ### The byte of the read -/

/-- A read-modify-write found after its read writes the byte computed from the one it keeps (R405). -/
theorem step_resumedWrite {s : State} {op : Op} {c : Csr} {n : Port} {x : Bool} {b : Byte}
    (hop : ∀ k rd, op.next k rd = nextRmw c n x k rd) (hctrl : s.ctrl = .busy op 1 (some b))
    (hready : s.Ready) (hexcl : s.board.exclusive = true) (hok : s.Succeeds 0) :
    ∃ t, step s = .next t ∧ t.ctrl = .idle ∧ t.returned = some (.operation (.ok .unit)) ∧
      t.target = (s.target.point (indexOf s.board.regIndex (.csr c))).write c (withBitSet b n x) := by
  have hnext : op.next 1 (some b) = .emit (.write c (withBitSet b n x)) := hop 1 (some b)
  have hrun := runOp_lastWrite (n := 2) hnext (hop 2 (some b)) (ready_slave hready) s.ctrl
  rw [environmentTurn_exclusive hexcl, busWrite_ok rfl hok] at hrun
  rw [step_busy hctrl (by simp [hnext]), opMoves, hrun, environmentTurn_exclusive (by exact hexcl)]
  exact ⟨_, rfl, rfl, rfl, rfl⟩

/-- Settles O37: each port operation is a read-modify-write found after its read. -/
theorem resumedWriteUsesKeptByte : Obligations.ResumedWriteUsesKeptByte := by
  intro s n b hready hexcl hok
  refine ⟨fun l hctrl => ?_, fun q hctrl => ?_, fun d hctrl => ?_⟩
  · exact step_resumedWrite (next_portWrite n l) hctrl hready hexcl hok
  · exact step_resumedWrite (next_portPolarity n q) hctrl hready hexcl hok
  · exact step_resumedWrite (next_portDirection n d) hctrl hready hexcl hok

end Sys2Proof.Machine
end

section
/-! What an instruction leaves of the register file (O43, O44): the registers its rule does not let it
write, and after PORT_DIRECTION to output what the chip drives. -/

namespace Sys2Proof.Machine

/-! ### What an operation may issue -/

theorem nextRejected_ne_emit (k : Nat) (acc : Access) : nextRejected k ≠ .emit acc := by
  cases k <;> exact nofun

theorem nextGet_emit {q : Reg} {k : Nat} {rd : Option Byte} {acc : Access}
    (h : nextGet q k rd = .emit acc) : k = 0 ∧ acc = .read q := by
  unfold nextGet at h
  split at h <;> cases h
  exact ⟨rfl, rfl⟩

theorem nextPortRead_emit {n : Port} {k : Nat} {rd : Option Byte} {acc : Access}
    (h : nextPortRead n k rd = .emit acc) : k = 0 ∧ acc = .read .input := by
  unfold nextPortRead at h
  split at h <;> cases h
  exact ⟨rfl, rfl⟩

theorem nextSet_emit {c : Csr} {v : Byte} {k : Nat} {acc : Access}
    (h : nextSet c v k = .emit acc) : k = 0 ∧ acc = .write c v := by
  unfold nextSet at h
  split at h <;> cases h
  exact ⟨rfl, rfl⟩

/-- A port operation writes only its own register (R206). -/
theorem nextPort_write {c c' : Csr} {operands : Option (Port × Bool)} {k : Nat} {rd : Option Byte}
    {v : Byte} (h : nextPort c operands k rd = .emit (.write c' v)) : c' = c := by
  cases operands with
  | none => exact absurd h (nextRejected_ne_emit k _)
  | some nx =>
    simp only [nextPort, nextRmw] at h
    split at h <;> cases h
    rfl

/-- An operation issues no transaction after the first unless its row has more than one, and writes only
what its rule lets it write (R49, R111). -/
theorem next_emit {i : Instr} {op : Op} {k : Nat} {rd : Option Byte} {acc : Access}
    (hop : opOf i = some op) (h : op.next k rd = .emit acc) :
    (transactionsOf i ≤ 1 → k = 0) ∧ ∀ c v, acc = .write c v → c ∈ mayWrite i := by
  cases i with
  | rdIn _ | rdOut _ | rdPol _ | rdCfg _ | wrOut _ _ | wrPol _ _ | wrCfg _ _ | wrIn _ _ => cases hop
  | getRegister r =>
    cases hop
    simp only [Op.next] at h
    split at h
    · obtain ⟨rfl, rfl⟩ := nextGet_emit h
      exact ⟨fun _ => rfl, nofun⟩
    · exact absurd h (nextRejected_ne_emit k acc)
  | setRegister r _ | resetRegister r =>
    cases hop
    simp only [Op.next] at h
    split at h
    · obtain ⟨rfl, rfl⟩ := nextSet_emit h
      exact ⟨fun _ => rfl, fun c v e => by cases e; simpa [mayWrite]⟩
    · exact absurd h (nextRejected_ne_emit k acc)
  | portRead p =>
    cases hop
    simp only [Op.next] at h
    split at h
    · obtain ⟨rfl, rfl⟩ := nextPortRead_emit h
      exact ⟨fun _ => rfl, nofun⟩
    · exact absurd h (nextRejected_ne_emit k acc)
  | portWrite _ _ | portPolarity _ _ | portDirection _ _ =>
    cases hop
    refine ⟨fun ht => absurd ht (by simp [transactionsOf]), ?_⟩
    rintro c v rfl
    exact List.mem_singleton.2 (nextPort_write h)
  | reset =>
    refine ⟨fun ht => absurd ht (by simp [transactionsOf]), fun c _ _ => ?_⟩
    cases c <;> simp [mayWrite]

/-! ### The registers a run leaves -/

/-- A run leaves a register its operation does not write, if no other agent can write between its
transactions: EXCLUSIVE, or an operation of one transaction (R49, R85). -/
theorem runOp_reg {op : Op} {c : Csr} (hwrite : ∀ k rd v, op.next k rd ≠ .emit (.write c v))
    (n step : Nat) (rd : Option Byte) (s : State)
    (halone : s.board.exclusive = true ∨ ∀ k rd acc, op.next k rd = .emit acc → k = 0) :
    (runOp n op step rd s).target.reg c = s.target.reg c := by
  induction n generalizing step rd s with
  | zero => rfl
  | succ n ih =>
    cases h : op.next step rd with
    | stuck => simp [runOp, h]
    | reject => rw [runOp_reject s h]; rfl
    | finish v => rw [runOp_finish s h]; rfl
    | emit acc =>
      cases hv : s.slave with
      | none => rw [runOp_invalid h hv]; rfl
      | some a =>
        have hturn : turnBefore step s = s := by
          cases step with
          | zero => rfl
          | succ k =>
            obtain hexcl | hone := halone
            · exact environmentTurn_exclusive hexcl
            · exact absurd (hone _ _ _ h) k.succ_ne_zero
        have hreg := transact_reg_other .controller a acc s c fun v e => hwrite step rd v (e ▸ h)
        have hboard : (transact .controller a acc s).1.board = s.board :=
          (transact_callFrame .controller a acc s).board
        rcases e : transact .controller a acc s with ⟨t, ans⟩
        rw [e] at hreg hboard
        rw [← hboard] at halone
        rw [← hturn] at e
        cases ans with
        | fail => rw [runOp_fail h hv e]; exact hreg
        | data d => rw [runOp_data h hv e]; exact (ih _ _ _ (by exact halone)).trans hreg
        | done => rw [runOp_done h hv e]; exact (ih _ _ _ (by exact halone)).trans hreg

/-- A call leaves every register its instruction's rule does not let it write (R49). -/
theorem callOp_reg {i : Instr} {op : Op} {s : State} {c : Csr} (hop : opOf i = some op)
    (halone : s.board.exclusive = true ∨ transactionsOf i ≤ 1) (hc : c ∉ mayWrite i) :
    (callOp op s).target.reg c = s.target.reg c :=
  runOp_reg (fun _ _ v h => hc ((next_emit hop h).2 c v rfl)) _ _ _ _
    (halone.imp_right fun hone _ _ _ h => (next_emit hop h).1 hone)

theorem mayWrite_writeInstr_csr (a : SlaveAddr) (v : Byte) (c : Csr) :
    mayWrite (writeInstr a v (.csr c)) = [c] := by
  cases c <;> rfl

/-- Settles O43: a primitive transaction writes at most its own register, an operation only what it
issues a write for. -/
theorem otherRegistersUnchanged : Obligations.OtherRegistersUnchanged := by
  intro i s t c halone hexec hc
  cases hi : i.isComposite with
  | true =>
    obtain ⟨op, hop, hcall⟩ := exec_composite hi
    cases (hcall s).symm.trans hexec
    exact callOp_reg hop halone hc
  | false =>
    obtain ⟨a, r, rfl⟩ | ⟨a, v, _ | c', rfl⟩ := primitive_cases hi
    · cases (exec_readInstr a r s).symm.trans hexec
      exact transact_reg_other .direct a _ s c nofun
    · by_cases ha : a = s.board.targetAddr
      · cases (exec_wrIn_target v ha).symm.trans hexec
      · cases (exec_wrIn_elsewhere v ha).symm.trans hexec
        rfl
    · cases (exec_writeInstr_csr a v c' s).symm.trans hexec
      refine transact_reg_other .direct a _ s c fun w e => hc ?_
      cases e
      simp [mayWrite_writeInstr_csr]

/-! ### The port that becomes an output -/

theorem getLsbD_neg_bitByte (v : Bool) (k : Port) : (-(bitByte v)).getLsbD k.val = v := by
  revert v k
  decide

theorem getLsbD_oneHot (n k : Port) : (1#8 <<< n.val).getLsbD k.val = decide (k = n) := by
  revert n k
  decide

/-- `with_bit_set` sets its bit and leaves the other seven (R202, R203). -/
theorem getLsbD_withBitSet (b : Byte) (n k : Port) (v : Bool) :
    (withBitSet b n v).getLsbD k.val = if k = n then v else b.getLsbD k.val := by
  rw [withBitSet, BitVec.getLsbD_xor, BitVec.getLsbD_and, BitVec.getLsbD_xor, getLsbD_neg_bitByte,
    getLsbD_oneHot]
  by_cases h : k = n
  · cases v <;> simp [h]
  · simp [h]

/-- With no other agent and no failure, a read-modify-write leaves its register with the one bit set and
the others as they were (R206, R212). -/
theorem rmwOutcome_target {s : State} (c : Csr) (n : Port) (x : Bool)
    (hexcl : s.board.exclusive = true) (hread : s.Succeeds 0) (hwrite : s.Succeeds 1) :
    (rmwOutcome s.board.targetAddr c n x s).target =
      (s.target.write c (withBitSet (s.target.reg c) n x)).point
        (indexOf s.board.regIndex (.csr c)) := by
  rw [rmwOutcome, busRead_ok rfl hread]
  dsimp only
  rw [environmentTurn_exclusive (by exact hexcl),
    busWrite_ok (by rfl) (by simpa [State.Succeeds] using hwrite)]
  exact point_write s.target _ c (withBitSet (s.target.reg c) n x)

theorem drives_point (t : Target) (cmd : Byte) (n : Port) : (t.point cmd).drives n = t.drives n := rfl

/-- After a write of CFG, a port is driven at its OUT bit where the byte has it an output (R38). -/
theorem drives_write_configuration (t : Target) (b : Byte) (n : Port) :
    (t.write .configuration b).drives n =
      if b.getLsbD n.val then none else some (if t.out.getLsbD n.val then .high else .low) := rfl

/-- Settles O44: the direction bit of the port is cleared and no other; OUT is as before. -/
theorem directionOutputDrivesLatch : Obligations.DirectionOutputDrivesLatch := by
  intro s n hready hexcl hread hwrite
  have hcall := callOp_rmw (next_portDirection n .output) (ready_slave hready)
  have htarget := rmwOutcome_target .configuration n (decide (Direction.output = .input))
    hexcl hread hwrite
  rw [← hcall] at htarget
  refine ⟨_, rfl, ?_⟩
  rw [htarget]
  refine ⟨?_, fun k hk => ?_⟩
  · rw [drives_point, drives_write_configuration, getLsbD_withBitSet, if_pos rfl]
    rfl
  · rw [drives_point, drives_write_configuration, getLsbD_withBitSet, if_neg hk]
    rfl

end Sys2Proof.Machine
end

section
/-! The checks of a handle (O9), the power cycle (O48) and the state at reset (O54). -/

namespace Sys2Proof.Machine

/-! ### The handle -/

theorem addrInRange_iff (a : SlaveAddr) :
    addrInRange a = true ↔ 0x38 ≤ a.toNat ∧ a.toNat ≤ 0x3F := by
  simp [addrInRange, Config.addrMin, Config.addrMax]

theorem validate_eq_true_iff (rule : OpenRule) (h : Option Handle) :
    validate rule h = true ↔
      ∃ bus addr, h = some { bus := bus, addr := addr } ∧ busOpen rule bus = true ∧
        0x38 ≤ addr.toNat ∧ addr.toNat ≤ 0x3F := by
  cases h with
  | none => simp [validate]
  | some k => cases k; simp [validate, addrInRange_iff]

/-- A descriptor bus is open at a non-negative descriptor (R45). -/
theorem busOpen_descriptor_iff (bus : BusRef) :
    busOpen .descriptor bus = true ↔ ∃ fd, bus = .opened fd ∧ 0 ≤ fd := by
  cases bus <;> simp [busOpen]

/-- Settles O9: an open bus and an address in range; for a descriptor, what open means. -/
theorem validateExactly : Obligations.ValidateExactly := by
  refine ⟨validate_eq_true_iff, fun h => (validate_eq_true_iff _ h).trans ⟨?_, ?_⟩⟩
  · rintro ⟨bus, addr, rfl, hopen, hrange⟩
    obtain ⟨fd, rfl, hfd⟩ := (busOpen_descriptor_iff bus).1 hopen
    exact ⟨fd, addr, rfl, hfd, hrange⟩
  · rintro ⟨fd, addr, rfl, hfd, hrange⟩
    exact ⟨_, addr, rfl, (busOpen_descriptor_iff _).2 ⟨fd, rfl, hfd⟩, hrange⟩

/-! ### The power cycle -/

/-- A power cycle's step (R316). -/
theorem step_powerCycle {s : State} {rest : List Input} (hctrl : s.ctrl = .idle)
    (hinbox : s.inbox = .powerCycle :: rest) :
    step s = .next (environmentTurn (powerCycle { s with inbox := rest })) := by
  simp [step, fetch, hctrl, hinbox, settle]

/-- Settles O48: the step is the power cycle and the other agents' turn. -/
theorem powerCycleRestoresDefaults : Obligations.PowerCycleRestoresDefaults := by
  intro s rest hctrl hinbox
  exact ⟨_, step_powerCycle hctrl hinbox, rfl, rfl, rfl, hctrl, rfl, rfl, rfl, rfl⟩

/-! ### Reset -/

theorem addrInRange_addrOf (sel : BitVec 3) : addrInRange (Config.addrOf sel) = true := by
  revert sel
  decide

theorem regOfIndex_defaultIndex (r : Reg) :
    regOfIndex defaultIndex (indexOf defaultIndex r) = some r := by
  obtain _ | ⟨_ | _ | _⟩ := r <;> rfl

/-- The default command bytes differ: each gives its register back (R11). -/
theorem indexDistinct_defaultIndex : IndexDistinct defaultIndex := by
  intro r q h
  have hreg := congrArg (regOfIndex defaultIndex) h
  rwa [regOfIndex_defaultIndex, regOfIndex_defaultIndex, Option.some.injEq] at hreg

/-- At reset the registers hold the defaults, which is what an empty log says they hold. -/
theorem registersMatchBus_reset : RegistersMatchBus State.reset := powerOn_reg Config.cmdReset

theorem readsMatchBus_reset : ReadsMatchBus State.reset := by
  intro before t after c d h
  simp [State.reset] at h

theorem controllerTrafficLegal_reset : ControllerTrafficLegal State.reset :=
  fun _ h => absurd h List.not_mem_nil

theorem environmentTrafficLegal_reset : EnvironmentTrafficLegal State.reset :=
  fun _ h => absurd h List.not_mem_nil

theorem boardLegal_reset : BoardLegal State.reset :=
  ⟨addrInRange_addrOf _, addrInRange_addrOf _, indexDistinct_defaultIndex⟩

/-- Settles O54: the log is empty, the registers are at their defaults and the board is legal. -/
theorem invariantsAtReset : Obligations.InvariantsAtReset :=
  ⟨registersMatchBus_reset, readsMatchBus_reset, controllerTrafficLegal_reset,
    environmentTrafficLegal_reset, boardLegal_reset⟩

end Sys2Proof.Machine
end

section
/-! The bus log as the memory model (O51, O52, O53): whatever a step does to the registers it does by
entries of the log, one at a time, so what every entry keeps a step keeps. -/

namespace Sys2Proof.Machine

/-! ### One entry of the log -/

@[simp] theorem lastWritten_append_singleton (c : Csr) (log : List Event) (e : Event) :
    lastWritten c (log ++ [e]) = e.registerAfter c (lastWritten c log) := by
  simp [lastWritten]

/-- A transaction in which no byte lands leaves every register. -/
theorem registerAfter_not_landed {tx : Transaction} (h : tx.landed = false) (c : Csr) (before : Byte) :
    Event.registerAfter c before (.transaction tx) = before := by
  simp only [Event.registerAfter, h]
  split <;> simp

/-- A write that lands leaves its byte in its register and no other. -/
theorem registerAfter_landed {tx : Transaction} {c' : Csr} {v : Byte}
    (hrequest : tx.request = .access (.write c' v)) (hlanded : tx.landed = true) (c : Csr)
    (before : Byte) :
    Event.registerAfter c before (.transaction tx) = if c' = c then v else before := by
  simp [Event.registerAfter, hrequest, hlanded]

/-- A transaction that the controller or the other agents may issue (R70, R80, R85). -/
structure Transaction.Legal (tx : Transaction) (b : Board) : Prop where
  controller : tx.agent = .controller → addrInRange tx.slave = true ∧ ∃ acc, tx.request = .access acc
  environment : tx.agent = .environment → tx.slave = b.targetAddr ∧ ∃ acc, tx.request = .access acc

/-- From `s` to `t` one event takes its place in the log: it does to the registers what the log says of
it, a read in it returned what its register held, and its agent may issue it. -/
structure Entry (s : State) (e : Event) (t : State) : Prop where
  bus : t.bus = s.bus ++ [e]
  board : t.board = s.board
  reg : ∀ c, t.target.reg c = e.registerAfter c (s.target.reg c)
  read : ∀ tx c d, e = .transaction tx → tx.request = .access (.read (.csr c)) →
    tx.answer = .data d → d = s.target.reg c
  legal : ∀ tx, e = .transaction tx → tx.Legal s.board

theorem unanswered_entry (a : SlaveAddr) (rq : Request) (s : State) :
    Entry s (.transaction ⟨.direct, a, rq, .fail, false⟩) (unanswered .direct a rq s) where
  bus := rfl
  board := rfl
  reg c := (registerAfter_not_landed rfl c _).symm
  read := by rintro _ c d ⟨⟩ - ⟨⟩
  legal := by rintro _ ⟨⟩; exact ⟨nofun, nofun⟩

theorem powerCycle_entry (s : State) : Entry s .powerCycle (powerCycle s) where
  bus := rfl
  board := rfl
  reg := powerOn_reg (s.env.drawAt 0).cmd
  read := nofun
  legal := nofun

/-- A transaction changes the registers as its entry in the log says (R84, R141, R142). -/
theorem transact_bus_reg (ag : Agent) (a : SlaveAddr) (acc : Access) (s : State) :
    ∃ landed, (transact ag a acc s).1.bus =
        s.bus ++ [.transaction ⟨ag, a, .access acc, (transact ag a acc s).2, landed⟩] ∧
      ∀ c, (transact ag a acc s).1.target.reg c = Event.registerAfter c (s.target.reg c)
        (.transaction ⟨ag, a, .access acc, (transact ag a acc s).2, landed⟩) := by
  obtain ⟨_, e⟩ | ⟨_, tgt, ans, landed, e, hcase⟩ := transact_cases ag a acc s <;> rw [e]
  · exact ⟨false, rfl, fun c => (registerAfter_not_landed rfl c _).symm⟩
  · refine ⟨landed, rfl, fun c => ?_⟩
    have hunlanded : landed = false → (∃ cmd, tgt = s.target.point cmd) → tgt.reg c =
        Event.registerAfter c (s.target.reg c) (.transaction ⟨ag, a, .access acc, ans, landed⟩) := by
      rintro hl ⟨cmd, rfl⟩
      rw [registerAfter_not_landed hl, point_reg]
    have hlanded : ∀ c' v, acc = .write c' v → landed = true →
        (∃ cmd, tgt = (s.target.point cmd).write c' v) → tgt.reg c =
        Event.registerAfter c (s.target.reg c) (.transaction ⟨ag, a, .access acc, ans, landed⟩) := by
      rintro c' v rfl hl ⟨cmd, rfl⟩
      rw [registerAfter_landed rfl hl, write_reg, point_reg]
    obtain ⟨r, -, hl, ⟨-, h⟩ | ⟨-, h⟩⟩ | ⟨c', v, hacc, ⟨-, ⟨hl, h⟩ | ⟨hl, h⟩⟩ | ⟨-, hl, h⟩⟩ := hcase
    · exact hunlanded hl ⟨_, h⟩
    · exact hunlanded hl ⟨_, h⟩
    · exact hlanded c' v hacc hl ⟨_, h⟩
    · exact hunlanded hl ⟨_, h⟩
    · exact hlanded c' v hacc hl ⟨_, h⟩

theorem transact_entry {ag : Agent} {a : SlaveAddr} {s : State} (acc : Access)
    (hcontroller : ag = .controller → addrInRange a = true)
    (henvironment : ag = .environment → a = s.board.targetAddr) :
    ∃ e, Entry s e (transact ag a acc s).1 := by
  obtain ⟨landed, hbus, hreg⟩ := transact_bus_reg ag a acc s
  refine ⟨_, hbus, (transact_callFrame ag a acc s).board, hreg, ?_, ?_⟩
  · rintro _ c d ⟨⟩ ⟨⟩ hanswer
    exact busRead_data_reg (Prod.ext rfl hanswer)
  · rintro _ ⟨⟩
    exact ⟨fun h => ⟨hcontroller h, acc, rfl⟩, fun h => ⟨henvironment h, acc, rfl⟩⟩

/-- A property of the target, the log and the parameters that every entry of the log keeps is kept by a
step. -/
theorem step_keeps_of_entry {P : State → Prop}
    (hsame : ∀ s t : State, t.target = s.target → t.bus = s.bus → t.board = s.board → P s → P t)
    (hentry : ∀ s e t, Entry s e t → P s → P t)
    {s t : State} (hs : P s) (hstep : step s = .next t) : P t :=
  step_keeps (fun s _ => hsame s _ rfl rfl rfl) (fun s _ _ => hsame s _ rfl rfl rfl)
    (fun s _ => hsame s _ rfl rfl rfl) (fun s _ => hsame s _ rfl rfl rfl)
    (fun s => hsame s _ rfl rfl rfl)
    (fun s a rq => hentry s _ _ (unanswered_entry a rq s))
    (fun s => hentry s _ _ (powerCycle_entry s))
    (fun s _ _ acc hc he hP => (transact_entry acc hc he).elim fun e h => hentry s e _ h hP) hs hstep

/-! ### The registers and the reads agree with the log -/

theorem RegistersMatchBus.of_entry {s t : State} {e : Event} (hs : RegistersMatchBus s)
    (h : Entry s e t) : RegistersMatchBus t := by
  intro c
  rw [h.reg, h.bus, lastWritten_append_singleton, hs c]

/-- The new entry, if it is a read, returned what its register held, which is what the log before it
says; the earlier reads are as before. -/
theorem ReadsMatchBus.of_entry {s t : State} {e : Event} (hs : ReadsMatchBus s)
    (hreg : RegistersMatchBus s) (h : Entry s e t) : ReadsMatchBus t := by
  intro before tx after c d hsplit hrequest hanswer
  rw [h.bus] at hsplit
  obtain rfl | ⟨after', e', rfl⟩ := after.eq_nil_or_concat'
  · obtain ⟨rfl, he⟩ := List.append_inj' hsplit rfl
    rw [h.read tx c d (List.singleton_inj.1 he) hrequest hanswer]
    exact hreg c
  · rw [← List.cons_append, ← List.append_assoc] at hsplit
    exact hs before tx after' c d (List.append_inj' hsplit rfl).1 hrequest hanswer

/-- Settles O51: every entry of the log keeps it. -/
theorem registersMatchBusKept : Obligations.RegistersMatchBusKept := by
  intro s t hs hstep
  refine step_keeps_of_entry ?_ (fun _ _ _ h hs => hs.of_entry h) hs hstep
  intro s t htarget hbus _ hs
  simpa only [RegistersMatchBus, htarget, hbus] using hs

/-- Settles O52: every entry of the log keeps it together with the agreement of the registers. -/
theorem readsMatchBusKept : Obligations.ReadsMatchBusKept := by
  intro s t hreg hs hstep
  refine (step_keeps_of_entry (P := fun u => RegistersMatchBus u ∧ ReadsMatchBus u) ?_
    (fun _ _ _ h hs => ⟨hs.1.of_entry h, hs.2.of_entry hs.1 h⟩) ⟨hreg, hs⟩ hstep).2
  intro s t htarget hbus _ hs
  simpa only [RegistersMatchBus, ReadsMatchBus, htarget, hbus] using hs

/-! ### The traffic stays legal -/

/-- Every transaction in the log is legal. -/
def State.TrafficLegal (s : State) : Prop := ∀ tx, Event.transaction tx ∈ s.bus → tx.Legal s.board

theorem trafficLegal_iff (s : State) :
    s.TrafficLegal ↔ ControllerTrafficLegal s ∧ EnvironmentTrafficLegal s :=
  ⟨fun h => ⟨fun tx hmem => (h tx hmem).controller, fun tx hmem => (h tx hmem).environment⟩,
    fun h tx hmem => ⟨h.1 tx hmem, h.2 tx hmem⟩⟩

theorem State.TrafficLegal.of_entry {s t : State} {e : Event} (hs : s.TrafficLegal)
    (h : Entry s e t) : t.TrafficLegal := by
  intro tx hmem
  rw [h.bus, List.mem_append, List.mem_singleton] at hmem
  rw [h.board]
  exact hmem.elim (hs tx) fun he => h.legal tx he.symm

/-- Settles O53: every entry of the log is legal. -/
theorem trafficLegalKept : Obligations.TrafficLegalKept := by
  intro s t hcontroller henvironment hstep
  refine (trafficLegal_iff t).1 (step_keeps_of_entry ?_ (fun _ _ _ h hs => hs.of_entry h)
    ((trafficLegal_iff s).2 ⟨hcontroller, henvironment⟩) hstep)
  intro s t _ hbus hboard hs
  simpa only [State.TrafficLegal, hbus, hboard] using hs

end Sys2Proof.Machine
end

section
/-! What a primitive transaction leaves (O22, O20), the other agents' turn (O49), and how a step comes to
run an instruction (O46). -/

namespace Sys2Proof.Machine

/-! ### The primitive transactions -/

theorem direct_frame (a : SlaveAddr) (acc : Access) (s : State) :
    (direct a acc s).ctrl = s.ctrl ∧ (direct a acc s).handle = s.handle ∧
    (direct a acc s).inbox = s.inbox ∧ (direct a acc s).board = s.board ∧
    ∃ e, (direct a acc s).bus = s.bus ++ [e] := by
  obtain ⟨hctrl, hhandle, -, hinbox, hboard⟩ := transact_frame .direct a acc s
  obtain ⟨_, hbus⟩ := transact_bus .direct a acc s
  exact ⟨hctrl, hhandle, hinbox, hboard, _, hbus⟩

/-- Settles O22: the instruction makes one transaction with the target, or it is WR.IN, which is refused
at the target and unanswered elsewhere. -/
theorem primitiveFrame : Obligations.PrimitiveFrame := by
  intro i s t hi hexec
  obtain ⟨a, r, rfl⟩ | ⟨a, v, _ | c, rfl⟩ := primitive_cases hi
  · cases (exec_readInstr a r s).symm.trans hexec
    exact direct_frame a (.read r) s
  · by_cases ha : a = s.board.targetAddr
    · cases (exec_wrIn_target v ha).symm.trans hexec
    · cases (exec_wrIn_elsewhere v ha).symm.trans hexec
      exact ⟨rfl, rfl, rfl, rfl, _, rfl⟩
  · cases (exec_writeInstr_csr a v c s).symm.trans hexec
    exact direct_frame a (.write c v) s

/-- At another address a primitive transaction is unanswered (R143). -/
theorem direct_elsewhere {a : SlaveAddr} {s : State} (h : a ≠ s.board.targetAddr) (acc : Access) :
    direct a acc s = directUnanswered a (.access acc) s := by
  rw [direct, transact_elsewhere h, directUnanswered]

/-- A read or a write of any register at another address is unanswered (R143). -/
theorem exec_elsewhere {a : SlaveAddr} {s : State} (h : a ≠ s.board.targetAddr) (r : Reg) (v : Byte) :
    (∃ rq, exec (readInstr a r) s = .next (directUnanswered a rq s)) ∧
    (∃ rq, exec (writeInstr a v r) s = .next (directUnanswered a rq s)) := by
  refine ⟨⟨_, by rw [exec_readInstr, direct_elsewhere h]⟩, ?_⟩
  cases r with
  | input => exact ⟨_, exec_wrIn_elsewhere v h⟩
  | csr c => exact ⟨_, by rw [exec_writeInstr_csr, direct_elsewhere h]⟩

/-- Settles O20: both transactions are unanswered. -/
theorem wrongAddressFails : Obligations.WrongAddressFails := by
  intro s a r v ha i hi
  obtain ⟨⟨_, hread⟩, ⟨_, hwrite⟩⟩ := exec_elsewhere ha r v
  obtain rfl | rfl := List.mem_pair.1 hi
  · exact ⟨_, hread, rfl, rfl, rfl⟩
  · exact ⟨_, hwrite, rfl, rfl, rfl⟩

/-! ### The other agents' turn -/

@[simp] theorem environmentAccess_board (s : State) (acc : Access) :
    (environmentAccess s acc).board = s.board :=
  (transact_callFrame .environment s.board.targetAddr acc s).board

/-- An access of the other agents is one transaction in the log, at the target's address (R85). -/
theorem environmentAccess_bus (s : State) (acc : Access) :
    ∃ tx : Transaction, (environmentAccess s acc).bus = s.bus ++ [.transaction tx] ∧
      tx.request = .access acc ∧ tx.agent = .environment ∧ tx.slave = s.board.targetAddr := by
  obtain ⟨_, hbus⟩ := transact_bus .environment s.board.targetAddr acc s
  exact ⟨_, hbus, rfl, rfl, rfl⟩

/-- Accesses of the other agents, one after the other, are transactions in the log in the same order. -/
theorem foldl_environmentAccess_bus (accs : List Access) (s : State) :
    ∃ txs : List Transaction,
      (accs.foldl environmentAccess s).bus = s.bus ++ txs.map .transaction ∧
      txs.map Transaction.request = accs.map .access ∧
      ∀ tx ∈ txs, tx.agent = .environment ∧ tx.slave = s.board.targetAddr := by
  induction accs generalizing s with
  | nil => exact ⟨[], by simp⟩
  | cons acc accs ih =>
    obtain ⟨tx, hbus, hrequest, htheirs⟩ := environmentAccess_bus s acc
    obtain ⟨txs, hbuses, hrequests, hall⟩ := ih (environmentAccess s acc)
    rw [environmentAccess_board] at hall
    refine ⟨tx :: txs, ?_, by simp [hrequest, hrequests], List.forall_mem_cons.2 ⟨htheirs, hall⟩⟩
    simp [hbuses, hbus]

/-- Settles O49: the turn is the accesses the state or the free value gives, one after the other. -/
theorem environmentTurnIssuesItsAccesses : Obligations.EnvironmentTurnIssuesItsAccesses := by
  refine fun s => ⟨environmentTurn_exclusive, fun hshared => ?_⟩
  have hturn : environmentTurn s =
      (s.env.turnAt 0).foldl environmentAccess { s with env := s.env.afterTurn } := by
    simp [environmentTurn, hshared]
  rw [hturn]
  exact foldl_environmentAccess_bus (s.env.turnAt 0) { s with env := s.env.afterTurn }

/-! ### The instruction of a step -/

/-- A step runs the frame that comes first in the inbox, if it is an instruction (R83, R110). -/
theorem step_frame {s : State} {i : Instr} {bs : List Byte} {rest : List Input}
    (hctrl : s.ctrl = .idle) (hinbox : s.inbox = .frame bs :: rest)
    (hdec : decode s.board.regIndex bs = .ok i) :
    step s = settle (exec i { s with inbox := rest }) := by
  simp [step, fetch, fetchFrame, hctrl, hinbox, hdec]

/-- A step runs the call that comes first in the inbox, with its handle (R44, R110). -/
theorem step_call {s : State} {i : Instr} {h : Option Handle} {rest : List Input}
    (hctrl : s.ctrl = .idle) (hinbox : s.inbox = .call h i :: rest) :
    step s = settle (exec i { s with inbox := rest, handle := h }) := by
  simp [step, fetch, hctrl, hinbox]

/-- A step runs the fixed-address call that comes first in the inbox, with the bound address (D20). -/
theorem step_fixedCall {s : State} {i : Instr} {bus : BusRef} {rest : List Input}
    (hctrl : s.ctrl = .idle) (hinbox : s.inbox = .fixedCall bus i :: rest) :
    step s = settle (exec i { s with inbox := rest, handle := some (fixedHandle bus s) }) := by
  simp [step, fetch, hctrl, hinbox]

/-- A placed word is the frame of its bytes, first in the inbox of an idle controller. -/
theorem step_withFetchWord {s : State} {i : Instr} {nbits w : Nat}
    (hdec : decode s.board.regIndex (tableBytes nbits w) = .ok i) :
    step (s.withFetchWord nbits w) = settle (exec i { s with ctrl := .idle }) :=
  step_frame rfl rfl hdec

theorem decodeTableWord_eq_some {nbits w : Nat} {i : Instr} (h : decodeTableWord nbits w = some i) :
    decode defaultIndex (tableBytes nbits w) = .ok i := by
  unfold decodeTableWord at h
  split at h <;> cases h
  assumption

/-- Settles O46: one equation of the step for each kind of input. -/
theorem stepRunsInstruction : Obligations.StepRunsInstruction := by
  intro s i rest run
  have hrun : ∀ u, run u = settle (exec i u) := fun _ => rfl
  refine ⟨fun bs hctrl hinbox hdec => ?_, fun h hctrl hinbox => ?_, fun b hctrl hinbox => ?_,
    fun nbits w hdec => ?_, fun nbits w hindex hword => ?_⟩
  · rw [hrun, step_frame hctrl hinbox hdec]
  · rw [hrun, step_call hctrl hinbox]
  · rw [hrun, step_fixedCall hctrl hinbox, fixedHandle]
  · rw [hrun, step_withFetchWord hdec]
  · rw [hrun, step_withFetchWord (hindex ▸ decodeTableWord_eq_some hword)]

end Sys2Proof.Machine
end

section
/-! How many transactions an operation makes (O39): each position of an operation stands at its place in
the instruction's row, so a run counts its way through the row. -/

namespace Sys2Proof.Machine

/-! ### The place of a move in its row -/

/-- A move that an operation of `m` transactions may make after `k` of them (R111). -/
def Next.InRow (m k : Nat) : Next → Prop
  | .reject => k = 0
  | .emit _ => k < m
  | .finish _ => k = m
  | .stuck => True

theorem nextRejected_inRow (m k : Nat) : (nextRejected k).InRow m k := by
  unfold nextRejected
  split <;> simp [Next.InRow]

theorem nextGet_inRow (q : Reg) (k : Nat) (rd : Option Byte) : (nextGet q k rd).InRow 1 k := by
  unfold nextGet
  split <;> simp [Next.InRow]

theorem nextSet_inRow (c : Csr) (v : Byte) (k : Nat) : (nextSet c v k).InRow 1 k := by
  unfold nextSet
  split <;> simp [Next.InRow]

theorem nextPortRead_inRow (n : Port) (k : Nat) (rd : Option Byte) :
    (nextPortRead n k rd).InRow 1 k := by
  unfold nextPortRead
  split <;> simp [Next.InRow]

theorem nextPort_inRow (c : Csr) (operands : Option (Port × Bool)) (k : Nat) (rd : Option Byte) :
    (nextPort c operands k rd).InRow 2 k := by
  cases operands with
  | none => exact nextRejected_inRow 2 k
  | some nx =>
    simp only [nextPort, nextRmw]
    split <;> simp [Next.InRow]

theorem nextReset_inRow (k : Nat) : (nextReset k).InRow 3 k := by
  unfold nextReset
  split <;> simp [Next.InRow]

/-- Every move of an operation is in its instruction's row (R111, R411). -/
theorem next_inRow {i : Instr} {op : Op} (hop : opOf i = some op) (k : Nat) (rd : Option Byte) :
    (op.next k rd).InRow (transactionsOf i) k := by
  cases i with
  | rdIn _ | rdOut _ | rdPol _ | rdCfg _ | wrOut _ _ | wrPol _ _ | wrCfg _ _ | wrIn _ _ => cases hop
  | getRegister _ =>
    cases hop
    simp only [Op.next]
    split
    · exact nextGet_inRow _ k rd
    · exact nextRejected_inRow _ k
  | setRegister _ _ | resetRegister _ =>
    cases hop
    simp only [Op.next]
    split
    · exact nextSet_inRow _ _ k
    · exact nextRejected_inRow _ k
  | portRead _ =>
    cases hop
    simp only [Op.next]
    split
    · exact nextPortRead_inRow _ k rd
    · exact nextRejected_inRow _ k
  | portWrite _ _ | portPolarity _ _ | portDirection _ _ =>
    cases hop
    exact nextPort_inRow _ _ k rd
  | reset =>
    cases hop
    exact nextReset_inRow k

/-- An operation rejects its operands before any transaction (R305). -/
theorem next_succ_ne_reject {i : Instr} {op : Op} {k : Nat} {rd : Option Byte}
    (hop : opOf i = some op) : op.next (k + 1) rd ≠ .reject := fun h =>
  k.succ_ne_zero (show (Next.reject).InRow _ (k + 1) from h ▸ next_inRow hop (k + 1) rd)

/-! ### Counting the controller's entries -/

/-- From `s` to `t` the log has grown by entries of which `n` are the controller's. -/
def Issued (n : Nat) (s t : State) : Prop :=
  ∃ evs, t.bus = s.bus ++ evs ∧ evs.countP Event.byController = n

theorem Issued.refl (s : State) : Issued 0 s s := ⟨[], by simp⟩

theorem Issued.trans {m n : Nat} {s t u : State} (hst : Issued m s t) (htu : Issued n t u) :
    Issued (m + n) s u := by
  obtain ⟨evs, ht, rfl⟩ := hst
  obtain ⟨evs', hu, rfl⟩ := htu
  exact ⟨evs ++ evs', by rw [hu, ht, List.append_assoc], List.countP_append⟩

/-- No entry of the other agents' turn is the controller's. -/
theorem turnBefore_issued (k : Nat) (s : State) : Issued 0 s (turnBefore k s) := by
  cases k with
  | zero => exact .refl s
  | succ k =>
    obtain ⟨evs, hbus, htheirs⟩ := environmentTurn_bus s
    refine ⟨evs, hbus, List.countP_eq_zero.2 fun e he => ?_⟩
    obtain ⟨acc, ans, landed, rfl⟩ := htheirs e he
    simp [Event.byController]

theorem transact_issued (a : SlaveAddr) (acc : Access) (s : State) :
    Issued 1 s (transact .controller a acc s).1 := by
  obtain ⟨landed, hbus⟩ := transact_bus .controller a acc s
  exact ⟨_, hbus, by simp [Event.byController]⟩

/-! ### A run counts through its row -/

/-- After `k` of an operation's `m` transactions at `s`, its run ended at `t`: it kept to its row,
finished it if it returned Ok, and did not return InvalidArgument. -/
def CountsTo (m k : Nat) (s t : State) : Prop :=
  ∃ n, Issued n s t ∧ k + n ≤ m ∧ (∀ v, t.returned = some (.operation (.ok v)) → k + n = m) ∧
    t.returned ≠ some (.operation (.err .invalidArgument))

/-- A transaction of the controller, then the rest of the run. -/
theorem CountsTo.of_issued {m k : Nat} {s t u : State} (hst : Issued 1 s t)
    (h : CountsTo m (k + 1) t u) : CountsTo m k s u := by
  obtain ⟨n, hissued, hle, hok, hvalid⟩ := h
  exact ⟨1 + n, hst.trans hissued, by omega, fun v hv => by have := hok v hv; omega, hvalid⟩

/-- Past its checks a run counts through its row. -/
theorem runOp_countsTo {i : Instr} {op : Op} (hop : opOf i = some op) {n k : Nat} {rd : Option Byte}
    {a : SlaveAddr} (s : State) (hstuck : op.next k rd ≠ .stuck) (hreject : op.next k rd ≠ .reject)
    (hslave : s.slave = some a) (hmoves : opMoves ≤ k + n) :
    CountsTo (transactionsOf i) k s (runOp n op k rd s) := by
  induction n generalizing k rd s with
  | zero => exact absurd (next_step_lt hstuck) (by omega)
  | succ n ih =>
    have hrow := next_inRow hop k rd
    cases h : op.next k rd with
    | stuck => exact absurd h hstuck
    | reject => exact absurd h hreject
    | finish v =>
      rw [h] at hrow
      rw [runOp_finish s h]
      exact ⟨0, .refl s, hrow.le, fun _ _ => hrow, by simp⟩
    | emit acc =>
      rw [h] at hrow
      have hissued : Issued 1 s (transact .controller a acc (turnBefore k s)).1 :=
        (turnBefore_issued k s).trans (transact_issued a acc _)
      have hslave' : (transact .controller a acc (turnBefore k s)).1.slave = some a := by
        cases k <;> simpa using hslave
      obtain ht | ⟨r, d, rfl, ht⟩ | ⟨c, v, rfl, ht⟩ :=
        transact_answer .controller a acc (turnBefore k s)
      · rw [runOp_fail h hslave (Prod.ext rfl ht)]
        exact ⟨1, hissued, hrow, by simp, by simp⟩
      · rw [runOp_data h hslave (Prod.ext rfl ht)]
        exact .of_issued hissued
          (ih _ (next_after_read h d) (next_succ_ne_reject hop) hslave' (by omega))
      · rw [runOp_done h hslave (Prod.ext rfl ht)]
        exact .of_issued hissued
          (ih _ (next_after_write h) (next_succ_ne_reject hop) hslave' (by omega))

/-- A call fails its checks, or counts through its row (R172, R178, R305). -/
theorem callOp_countsTo {i : Instr} {op : Op} (hop : opOf i = some op) (s : State) :
    callOp op s = raise .invalidArgument s ∨ CountsTo (transactionsOf i) 0 s (callOp op s) := by
  obtain h | ⟨acc, h⟩ := next_zero op none
  · exact .inl (callOp_reject h s)
  · cases hslave : s.slave with
    | none => exact .inl (callOp_invalid op hslave)
    | some a =>
      exact .inr (runOp_countsTo hop { s with ctrl := .busy op 0 none } (by simp [h]) (by simp [h])
        hslave (by omega))

/-- Settles O39: the checks come before any transaction, and past them the run counts through its row. -/
theorem transactionCounts : Obligations.TransactionCounts := by
  intro i s t hi hexec
  obtain ⟨op, hop, hcall⟩ := exec_composite hi
  cases (hcall s).symm.trans hexec
  obtain h | ⟨n, ⟨evs, hbus, rfl⟩, hle, hok, hvalid⟩ := callOp_countsTo hop s
  · rw [h]
    exact ⟨[], by simp⟩
  · simp only [Nat.zero_add, List.countP_eq_length_filter] at hle hok
    exact ⟨evs, hbus, hle, hok, fun hinvalid => absurd hinvalid hvalid⟩

end Sys2Proof.Machine
end

section
/-! Frames as bytes (O2, O3, O4) and the frames that are no instruction (O5, O6): what the decoder
rejects, and the step that meets such a frame at the target's address and at another. -/

namespace Sys2Proof

/-! ### The address byte -/

theorem toNat_addressByte (a : SlaveAddr) (rw : Bool) :
    (addressByte a rw).toNat = 2 * a.toNat + (if rw then 1 else 0) := by
  have ha := a.isLt
  have hshift : (a.setWidth 8 <<< 1).toNat = a.toNat <<< 1 := by
    simp [Nat.shiftLeft_eq]; omega
  have hbit : (bitByte rw).toNat = if rw then 1 else 0 := by cases rw <;> rfl
  rw [addressByte, BitVec.toNat_or, hshift, hbit, ← Nat.shiftLeft_add_eq_or_of_lt (by split <;> omega),
    Nat.shiftLeft_eq, Nat.mul_comm, pow_one]

theorem toNat_slaveOf (b : Byte) : (slaveOf b).toNat = b.toNat / 2 := by
  have hb := b.isLt
  simp only [slaveOf, BitVec.extractLsb'_toNat, Nat.shiftRight_eq_div_pow]
  omega

theorem isReadByte_eq (b : Byte) : isReadByte b = decide (b.toNat % 2 = 1) := by
  simp [isReadByte, BitVec.getLsbD]

/-- An address byte is determined by its slave address and direction (R100). -/
theorem addressByte_slaveOf (b : Byte) : addressByte (slaveOf b) (isReadByte b) = b := by
  refine BitVec.eq_of_toNat_eq ?_
  simp only [toNat_addressByte, toNat_slaveOf, isReadByte_eq, decide_eq_true_eq]
  split <;> omega

/-- Settles O4: the byte's number, and the two fields read back. -/
theorem addressByteLayout : Obligations.AddressByteLayout := fun a rw =>
  ⟨toNat_addressByte a rw, slaveOf_addressByte a rw, isReadByte_addressByte a rw⟩

/-! ### What the decoder accepts -/

theorem regOfIndex_eq_some {m : RegIndex} {c : Byte} {r : Reg} (h : regOfIndex m c = some r) :
    indexOf m r = c := by
  simpa using List.find?_some h

theorem selectReg_eq_ok {m : RegIndex} {c : Byte} {mk : Reg → Instr} {i : Instr}
    (h : selectReg m c mk = .ok i) : ∃ r, c = indexOf m r ∧ i = mk r := by
  unfold selectReg at h
  split at h <;> cases h
  exact ⟨_, (regOfIndex_eq_some ‹_›).symm, rfl⟩

/-- A byte with direction bit `rw` is the address byte of the slave it names. -/
theorem eq_addressByte {b : Byte} {rw : Bool} (h : isReadByte b = rw) :
    b = addressByte (slaveOf b) rw := by
  rw [← h, addressByte_slaveOf]

/-- Format W accepts the frame of a write and nothing else (R101). -/
theorem decodeWrite_eq_ok {m : RegIndex} {b c d : Byte} {i : Instr} (h : decodeWrite m b c d = .ok i) :
    ∃ a r, addrInRange a = true ∧ i = writeInstr a d r ∧ [b, c, d] = writeFrame m a r d := by
  unfold decodeWrite at h
  split_ifs at h with hread hrange
  obtain ⟨r, rfl, rfl⟩ := selectReg_eq_ok h
  refine ⟨slaveOf b, r, by simpa using hrange, rfl, ?_⟩
  rw [writeFrame, ← eq_addressByte (by simpa using hread)]

/-- Format R accepts the frame of a read, whatever the target's byte, and nothing else (R102). -/
theorem decodeRead_eq_ok {m : RegIndex} {b c b' : Byte} {i : Instr} (h : decodeRead m b c b' = .ok i) :
    ∃ a r, addrInRange a = true ∧ i = readInstr a r ∧ [b, c, b'] = (readFrame m a r).take 3 := by
  unfold decodeRead at h
  split_ifs at h with hread hrange hread' hsame
  obtain ⟨r, rfl, rfl⟩ := selectReg_eq_ok h
  refine ⟨slaveOf b, r, by simpa using hrange, rfl, ?_⟩
  have hfirst : b = addressByte (slaveOf b) false := eq_addressByte (by simpa using hread)
  have hthird : b' = addressByte (slaveOf b) true :=
    not_not.1 hsame ▸ eq_addressByte (by simpa using hread')
  simp [readFrame, ← hfirst, ← hthird]

@[simp] theorem isComposite_readInstr (a : SlaveAddr) (r : Reg) : (readInstr a r).isComposite = false := by
  obtain _ | ⟨_ | _ | _⟩ := r <;> rfl

@[simp] theorem isComposite_writeInstr (a : SlaveAddr) (v : Byte) (r : Reg) :
    (writeInstr a v r).isComposite = false := by
  obtain _ | ⟨_ | _ | _⟩ := r <;> rfl

/-- Settles O2: only the two formats are accepted, and each accepts only the frames of its transactions. -/
theorem encodeDecodeRoundTrip : Obligations.EncodeDecodeRoundTrip := by
  intro m bs i h
  unfold decode at h
  split at h
  · cases h
  · cases h
  · cases h
  · obtain ⟨a, r, ha, rfl, hbytes⟩ := decodeWrite_eq_ok h
    exact ⟨by simpa using ha, by simp, _, encode_writeInstr m a _ r, rfl, by rw [hbytes]⟩
  · obtain ⟨a, r, ha, rfl, hbytes⟩ := decodeRead_eq_ok h
    exact ⟨by simpa using ha, by simp, _, encode_readInstr m a r, rfl, hbytes.symm⟩
  · cases h

/-- Settles O3: each word is decoded. -/
theorem tableWordsDecode : Obligations.TableWordsDecode := by
  unfold Obligations.TableWordsDecode
  decide

/-! ### What the decoder rejects -/

/-- A command byte that is no register's selects nothing (R103). -/
theorem selectReg_reserved {m : RegIndex} {c : Byte} (h : ∀ r, indexOf m r ≠ c) (mk : Reg → Instr) :
    selectReg m c mk = .error .reservedCommand := by
  unfold selectReg
  split
  · exact absurd (regOfIndex_eq_some ‹_›) (h _)
  · rfl

theorem decodeWrite_reserved {m : RegIndex} {a : SlaveAddr} {c : Byte} (ha : addrInRange a = true)
    (h : ∀ r, indexOf m r ≠ c) (d : Byte) :
    decode m [addressByte a false, c, d] = .error .reservedCommand := by
  simp [decode, decodeWrite, ha, selectReg_reserved h]

theorem decodeRead_reserved {m : RegIndex} {a : SlaveAddr} {c : Byte} (ha : addrInRange a = true)
    (h : ∀ r, indexOf m r ≠ c) (d : Byte) :
    decode m [addressByte a false, c, addressByte a true, d] = .error .reservedCommand := by
  simp [decode, decodeRead, ha, selectReg_reserved h]

/-- Four bytes without the second read address are a write of two data bytes (R109). -/
theorem decode_twoData {a : SlaveAddr} {d : Byte} (ha : addrInRange a = true)
    (hd : isReadByte d = false) (m : RegIndex) (c e : Byte) :
    decode m [addressByte a false, c, d, e] = .error .tooLong := by
  simp [decode, decodeRead, ha, hd]

/-- No format has more than four bytes (R101, R102). -/
theorem decode_long {rest : List Byte} (h : 4 ≤ rest.length) (m : RegIndex) (b : Byte) :
    decode m (b :: rest) = .error .tooLong := by
  match rest, h with
  | _ :: _ :: _ :: _ :: _, _ => rfl

/-- The default command bytes are 0x00 to 0x03 (R11). -/
theorem indexOf_defaultIndex_ne_iff (c : Byte) : (∀ r, indexOf defaultIndex r ≠ c) ↔ 4 ≤ c.toNat := by
  constructor
  · intro h
    have h0 := h .input
    have h1 := h (.csr .output)
    have h2 := h (.csr .polarity)
    have h3 := h (.csr .configuration)
    simp only [indexOf, defaultIndex] at h0 h1 h2 h3
    bv_omega
  · rintro h r rfl
    obtain _ | ⟨_ | _ | _⟩ := r <;> exact absurd h (by decide)

end Sys2Proof

namespace Sys2Proof.Machine

/-! ### The step that meets a frame that is no instruction -/

theorem step_placeFrame_error {s : State} {bs : List Byte} {e : FrameError}
    (h : decode s.board.regIndex bs = .error e) :
    step (placeFrame bs s) = settle (rejectFrame e bs { s with ctrl := .idle }) := by
  simp [step, fetch, fetchFrame, placeFrame, h]

/-- At the target the frame is refused (R108, R152). -/
theorem step_placeFrame_refused {s : State} {b : Byte} {rest : List Byte} {e : FrameError}
    (hslave : slaveOf b = s.board.targetAddr) (h : decode s.board.regIndex (b :: rest) = .error e) :
    step (placeFrame (b :: rest) s) = .refused (frameRefusal e) := by
  rw [step_placeFrame_error h, rejectFrame, if_pos hslave, settle]

/-- At another address the frame fails on the bus (R143). -/
theorem step_placeFrame_elsewhere {s : State} {b : Byte} {rest : List Byte} {e : FrameError}
    (hslave : slaveOf b ≠ s.board.targetAddr) (h : decode s.board.regIndex (b :: rest) = .error e) :
    step (placeFrame (b :: rest) s) = .next (environmentTurn
      (directUnanswered (slaveOf b) (.bytes (b :: rest)) { s with ctrl := .idle })) := by
  rw [step_placeFrame_error h, rejectFrame, if_neg hslave, settle]

/-- Settles O5: the decoder rejects each of these frames as reserved or too long, which share their
refusal at the target. -/
theorem reservedFramesRefused : Obligations.ReservedFramesRefused := by
  refine ⟨indexOf_defaultIndex_ne_iff, fun s ha => ⟨fun c d hc => ⟨?_, ?_⟩, fun c d e hd => ?_,
    fun b rest hslave hlen => ?_⟩⟩
  · exact step_placeFrame_refused (slaveOf_addressByte _ _) (decodeWrite_reserved ha hc d)
  · exact step_placeFrame_refused (slaveOf_addressByte _ _) (decodeRead_reserved ha hc d)
  · exact step_placeFrame_refused (slaveOf_addressByte _ _) (decode_twoData ha hd _ c e)
  · exact step_placeFrame_refused hslave (decode_long hlen _ b)

/-- Settles O6: the frame fails on the bus. -/
theorem foreignFrameFails : Obligations.ForeignFrameFails :=
  fun _ _ _ _ hslave h => ⟨_, step_placeFrame_elsewhere hslave h, rfl, rfl, rfl⟩

end Sys2Proof.Machine
end

section
/-! The primitive transactions at the target's address: what a read (O14, O15, O16, O18) and a write
(O17, O19, O21) do when the coming transaction succeeds and when it fails on its way. -/

namespace Sys2Proof.Machine

/-! ### Reads -/

/-- A read that the target answers with the byte `d` (R140): the whole next state. -/
theorem exec_read_ok {s : State} {r : Reg} {d : Byte} (h : s.Succeeds 0)
    (hd : readValue r (s.env.drawAt 0) { s with env := s.env.afterDraw } = d) :
    exec (readInstr s.board.targetAddr r) s =
      .next { s with
        env := s.env.afterDraw
        target := s.target.point (indexOf s.board.regIndex r)
        bus := s.bus ++ [directTx s.board.targetAddr (.read r) (.data d) false]
        returned := some (.transaction (.data d)) } := by
  subst hd
  rw [exec_readInstr, direct, transact_read, busRead_ok rfl h]
  rfl

/-- Settles O14: the byte of a read of a writable register is the register. -/
theorem readCsrTransaction : Obligations.ReadCsrTransaction :=
  fun _ _ h => exec_read_ok h rfl

/-- Input's byte is the draw, whatever the registers hold (R144, `Free`). -/
theorem readValue_input_free {s : State} (h : s.board.inputModel = .free) (d : Draw) (e : Env) :
    readValue .input d { s with env := e } = d.input := by
  simp [readValue, inputValue, h]

/-- Input's byte is the pins, inverted where POL says so (R144, `PinXorPolarity`). -/
theorem readValue_input_pinXorPolarity {s : State} (h : s.board.inputModel = .pinXorPolarity)
    (d : Draw) (e : Env) :
    readValue .input d { s with env := e } = pinLevels s.target e.pins ^^^ s.target.pol := by
  simp [readValue, inputValue, h]

/-- Settles O15: the byte of the read is the draw. -/
theorem readInputTransaction : Obligations.ReadInputTransaction :=
  fun _ h hfree => exec_read_ok h (readValue_input_free hfree _ _)

/-- The pin of an input port is at its external level, of an output port at its OUT bit (R144). -/
theorem getLsbD_pinLevels (t : Target) (external : Byte) (n : Port) :
    (pinLevels t external).getLsbD n.val =
      if t.cfg.getLsbD n.val then external.getLsbD n.val else t.out.getLsbD n.val := by
  cases h : t.cfg.getLsbD n.val <;> simp [pinLevels, h, -BitVec.getLsbD_eq_getElem]

/-- Settles O16: the byte of the read is the pins XOR the polarities. -/
theorem readInputFromPins : Obligations.ReadInputFromPins := by
  intro s h hpins
  refine ⟨_, _, exec_read_ok h (readValue_input_pinXorPolarity hpins _ _), rfl, rfl, fun n => ?_⟩
  rw [BitVec.getLsbD_xor, getLsbD_pinLevels, afterDraw_pins]

/-- Settles O18: the read latches an unspecified command pointer and nothing else of the target. -/
theorem failedReadTransaction : Obligations.FailedReadTransaction := by
  intro s r h
  rw [exec_readInstr, direct, transact_read, busRead_fails rfl h]
  rfl

/-! ### Writes -/

/-- Settles O17: a write that succeeds stores its byte; the pointer it latches is no register. -/
theorem writeTransaction : Obligations.WriteTransaction := by
  intro s c v h
  rw [exec_writeInstr_csr, direct, transact_write, busWrite_ok rfl h, point_write]
  rfl

/-- A write that fails on its way (R142). -/
theorem exec_write_fails {s : State} (c : Csr) (v : Byte) (h : s.Fails 0) :
    ∃ t, exec (writeInstr s.board.targetAddr v (.csr c)) s = .next t ∧
      t.returned = some (.transaction .fail) ∧
      t.target =
        if (s.env.drawAt 0).applied then (s.target.point (s.env.drawAt 0).cmd).write c v
        else s.target.point (s.env.drawAt 0).cmd := by
  rw [exec_writeInstr_csr, direct, transact_write, busWrite_fails rfl h]
  exact ⟨_, rfl, rfl, rfl⟩

/-- Settles O19: the failed write reached its register, or it did not. -/
theorem failedWriteTransaction : Obligations.FailedWriteTransaction := by
  intro s c v h
  obtain ⟨t, hexec, hreturned, htarget⟩ := exec_write_fails c v h
  refine ⟨t, hexec, hreturned, ?_⟩
  rw [htarget]
  cases (s.env.drawAt 0).applied with
  | true => exact ⟨by simp, nofun, fun _ hc => by simp [write_reg_other _ v hc], by simp⟩
  | false => exact ⟨nofun, by simp, by simp, by simp⟩

/-- Settles O21: the address is the target's. -/
theorem writeToInputRefused : Obligations.WriteToInputRefused :=
  fun _ v => exec_wrIn_target v rfl

end Sys2Proof.Machine
end

section
/-! The register operations: what every operation rejects (O10, O11, O12), the rules of GET_REGISTER,
SET_REGISTER and RESET_REGISTER (O23, O24, O25), their whole next state when the transaction succeeds
(O29), and a register written and read back over two steps (O34). -/

namespace Sys2Proof.Machine

/-! ### What every operation rejects -/

/-- An operation with an invalid handle, or with an operand its row does not admit, raises
InvalidArgument at once (R172, R173, R301). -/
theorem exec_rejected {i : Instr} {s : State} (hi : i.isComposite = true)
    (h : validate s.board.busOpen s.handle = false ∨ i.wellFormed = false) :
    exec i s = .next (raise .invalidArgument s) := by
  obtain ⟨op, hop, hexec⟩ := exec_composite hi
  rw [hexec]
  obtain hinvalid | hwf := h
  · rw [callOp_invalid op (slave_invalid hinvalid)]
  · rw [callOp_reject (next_zero_of_illFormed hop hwf none)]

/-- Settles O10: the handle is checked before any transaction. -/
theorem invalidHandleRejected : Obligations.InvalidHandleRejected :=
  fun _ _ hi hinvalid => exec_rejected hi (.inl hinvalid)

/-- Settles O11: the code of IN is none of a writable register. -/
theorem inputWriteRejected : Obligations.InputWriteRejected :=
  fun _ _ => ⟨exec_rejected rfl (.inr rfl), exec_rejected rfl (.inr rfl)⟩

theorem regCodeOk_large {r : Nat} (h : 3 < r) : regCodeOk r = false := by
  simpa [regCodeOk] using h

/-- The codes that SET_REGISTER and RESET_REGISTER reject (R173, R179). -/
theorem csrCodeOk_rejected {r : Nat} (h : 3 < r ∨ r = regCode .input) : csrCodeOk r = false := by
  obtain h | rfl := h
  · simp [csrCodeOk, h]
  · rfl

theorem portOk_outside {p : Int} (h : p < 0 ∨ 7 < p) : portOk p = false := by
  simp only [portOk, Bool.and_eq_false_iff, decide_eq_false_iff_not]
  omega

theorem valueOk_other {x : Int} (h0 : x ≠ 0) (h1 : x ≠ 1) : valueOk x = false := by
  simp [valueOk, h0, h1]

/-- Settles O12: each operand is one its row does not admit. -/
theorem operandOutOfRangeRejected : Obligations.OperandOutOfRangeRejected := by
  intro s
  simp only [List.forall_mem_cons, List.not_mem_nil, false_implies, implies_true, and_true]
  refine ⟨fun r v hr => ⟨?_, ?_, ?_⟩, fun p x hp => ?_, fun p x h0 h1 => ?_⟩
  · exact exec_rejected rfl (.inr (regCodeOk_large hr))
  · exact exec_rejected rfl (.inr (csrCodeOk_rejected (.inl hr)))
  · exact exec_rejected rfl (.inr (csrCodeOk_rejected (.inl hr)))
  · have hport : (portOk p && valueOk x) = false := by rw [portOk_outside hp, Bool.false_and]
    exact ⟨exec_rejected rfl (.inr (portOk_outside hp)), exec_rejected rfl (.inr hport),
      exec_rejected rfl (.inr hport), exec_rejected rfl (.inr hport)⟩
  · have hvalue : (portOk p && valueOk x) = false := by rw [valueOk_other h0 h1, Bool.and_false]
    exact ⟨exec_rejected rfl (.inr hvalue), exec_rejected rfl (.inr hvalue),
      exec_rejected rfl (.inr hvalue)⟩

/-! ### The rules of the register operations -/

/-- Settles O23: the operand and the handle are checked, and the call is an operation of one read. -/
theorem getRegisterRule : Obligations.GetRegisterRule := by
  refine fun s r => ⟨fun hbad => ?_, ?_⟩
  · exact exec_rejected rfl (hbad.imp_right regCodeOk_large)
  · rintro h q hhandle hvalid rfl
    exact congrArg Host.Outcome.next (callOp_read (value := .byte) (next_getRegister q 0 none)
      (fun d => next_getRegister q 1 (some d)) (slave_valid hhandle hvalid))

/-- Settles O24: the operand and the handle are checked, and the call is an operation of one write. -/
theorem setRegisterRule : Obligations.SetRegisterRule := by
  refine fun s r v => ⟨fun hbad => ?_, ?_⟩
  · exact exec_rejected rfl (hbad.imp_right csrCodeOk_rejected)
  · rintro h c hhandle hvalid rfl
    exact congrArg Host.Outcome.next (callOp_write (next_setRegister c v 0 none)
      (next_setRegister c v 1 none) (slave_valid hhandle hvalid))

/-- RESET_REGISTER of a writable register is SET_REGISTER of its default, whatever the handle (R176). -/
theorem exec_resetRegister (c : Csr) (s : State) :
    exec (.resetRegister (csrCode c)) s = exec (.setRegister (csrCode c) (Config.default c)) s := by
  rw [exec_of_opOf rfl, exec_of_opOf rfl]
  cases hslave : s.slave with
  | none => rw [callOp_invalid _ hslave, callOp_invalid _ hslave]
  | some a =>
    rw [callOp_write (next_resetRegister c 0 none) (next_resetRegister c 1 none) hslave,
      callOp_write (next_setRegister c _ 0 none) (next_setRegister c _ 1 none) hslave]

/-- Settles O25: the operand and the handle are checked; the defaults are R12's. -/
theorem resetRegisterRule : Obligations.ResetRegisterRule := by
  refine fun s r => ⟨fun hbad => ?_, ?_⟩
  · exact exec_rejected rfl (hbad.imp_right csrCodeOk_rejected)
  · rintro c rfl
    rw [exec_resetRegister]
    cases c <;> rfl

/-! ### The register operations that succeed -/

/-- GET_REGISTER whose read the target answers with the byte `d` (R174): the whole next state. -/
theorem exec_getRegister_ok {s : State} {q : Reg} {d : Byte} (hready : s.Ready) (hok : s.Succeeds 0)
    (hd : readValue q (s.env.drawAt 0) { s with env := s.env.afterDraw } = d) :
    exec (.getRegister (regCode q)) s =
      .next { s with
        ctrl := .idle
        env := s.env.afterDraw
        target := s.target.point (indexOf s.board.regIndex q)
        bus := s.bus ++ [s.controllerTx (.read q) (.data d) false]
        returned := some (.operation (.ok (.byte d))) } := by
  subst hd
  rw [exec_of_opOf rfl, callOp_read (value := .byte) (next_getRegister q 0 none)
    (fun d => next_getRegister q 1 (some d)) (ready_slave hready), busRead_ok rfl hok]
  rfl

/-- SET_REGISTER whose write the target answers (R175): the whole next state. -/
theorem exec_setRegister_ok {s : State} (c : Csr) (v : Byte) (hready : s.Ready)
    (hok : s.Succeeds 0) :
    exec (.setRegister (csrCode c) v) s =
      .next { s with
        ctrl := .idle
        env := s.env.afterDraw
        target := (s.target.write c v).point (indexOf s.board.regIndex (.csr c))
        bus := s.bus ++ [s.controllerTx (.write c v) .done true]
        returned := some (.operation (.ok .unit)) } := by
  rw [exec_of_opOf rfl, callOp_write (next_setRegister c v 0 none) (next_setRegister c v 1 none)
    (ready_slave hready), busWrite_ok rfl hok, point_write]
  rfl

/-- Settles O29: a read of a writable register is its byte, of IN under `Free` the draw; RESET_REGISTER is
SET_REGISTER of the default. -/
theorem registerOperationsComplete : Obligations.RegisterOperationsComplete := by
  refine fun s hready hok => ⟨fun c => ?_, fun hfree => ?_, fun c v => ?_, fun c => ?_⟩
  · exact exec_getRegister_ok (q := .csr c) hready hok rfl
  · exact exec_getRegister_ok hready hok (readValue_input_free hfree _ _)
  · exact exec_setRegister_ok c v hready hok
  · rw [exec_resetRegister]
    exact exec_setRegister_ok c _ hready hok

/-! ### A register written and read back -/

/-- With EXCLUSIVE a step is the call that comes first in the inbox and nothing else (R85, R110). -/
theorem step_call_exclusive {s t : State} {i : Instr} {h : Option Handle} {rest : List Input}
    (hctrl : s.ctrl = .idle) (hinbox : s.inbox = .call h i :: rest)
    (hexec : exec i { s with inbox := rest, handle := h } = .next t)
    (hexcl : t.board.exclusive = true) : step s = .next t := by
  rw [step_call hctrl hinbox, hexec, settle, environmentTurn_exclusive hexcl]

/-- Settles O34: the first step stores the byte and leaves the second transaction's draw to the second
step, which reads the register back. -/
theorem setThenGetRoundTrip : Obligations.SetThenGetRoundTrip := by
  intro s h c v rest hctrl hexcl hvalid haddr hok0 hok1 hinbox
  have hset := step_call_exclusive hctrl hinbox
    (exec_setRegister_ok c v ⟨h, rfl, hvalid, haddr⟩ hok0) hexcl
  refine ⟨_, _, hset, step_call_exclusive rfl rfl
    (exec_getRegister_ok (q := .csr c) (d := v) ⟨h, rfl, hvalid, haddr⟩ ?_ ?_) hexcl, rfl⟩
  · simpa [State.Succeeds] using hok1
  · simp [readValue]

end Sys2Proof.Machine
end

section
/-! The masking functions and the port operations: with_bit_set bit by bit (O7, O8), PORT_READ as its
pseudocode, its whole next state and that it writes nothing (O26, O30, O40), and the read-modify-write of
PORT_WRITE, PORT_POLARITY and PORT_DIRECTION as its pseudocode, its whole next state and its one bit (O27,
O31, O35). -/

namespace Sys2Proof.Machine

/-! ### The masking functions -/

/-- Bytes that agree at the eight ports are equal. -/
theorem byte_ext {b b' : Byte} (h : ∀ k : Port, b.getLsbD k.val = b'.getLsbD k.val) : b = b' :=
  BitVec.eq_of_getLsbD_eq fun i hi => h ⟨i, hi⟩

theorem getLsbD_bitByte_shiftLeft (n k : Port) (v : Bool) :
    (bitByte v <<< n.val).getLsbD k.val = (decide (k = n) && v) := by
  cases v with
  | false => simp [bitByte]
  | true => simpa [bitByte] using getLsbD_oneHot n k

/-- Settles O7: at its own bit both sides are the value, at any other the old bit. -/
theorem withBitSetIsClearThenOr : Obligations.WithBitSetIsClearThenOr := by
  intro b n v
  refine byte_ext fun k => ?_
  rw [getLsbD_withBitSet, BitVec.getLsbD_or, BitVec.getLsbD_and, BitVec.getLsbD_not, getLsbD_oneHot,
    getLsbD_bitByte_shiftLeft]
  by_cases hk : k = n
  · simp [hk]
  · simp [hk]

/-- `bit_get` is the bit (R200). -/
theorem bitGet_eq (b : Byte) (n : Port) : bitGet b n = bitByte (b.getLsbD n.val) := by
  rw [bitGet, BitVec.and_one_eq_setWidth_ofBool_getLsbD, BitVec.getLsbD_ushiftRight, Nat.add_zero]
  cases b.getLsbD n.val <;> rfl

/-- Settles O8: `bit_get` is the bit, and `with_bit_set` is known bit by bit. -/
theorem withBitSetFrame : Obligations.WithBitSetFrame := by
  refine fun b n v => ⟨bitGet_eq b n, ?_, fun k hk => ?_, fun hv => byte_ext fun k => ?_⟩
  · rw [bitGet_eq, getLsbD_withBitSet, if_pos rfl]
  · rw [bitGet_eq, bitGet_eq, getLsbD_withBitSet, if_neg hk]
  · rw [getLsbD_withBitSet]
    split
    next hk => rw [hk, hv]
    next => rfl

/-- The level of an extracted bit (R34, R200). -/
theorem levelOf_bitGet (b : Byte) (n : Port) :
    levelOf (bitGet b n) = if b.getLsbD n.val then .high else .low := by
  rw [bitGet_eq]
  cases b.getLsbD n.val <;> rfl

/-! ### PORT_READ -/

theorem next_portRead_one (n : Port) (d : Byte) :
    (Op.portRead n.val).next 1 (some d) =
      .finish (.level (if d.getLsbD n.val then .high else .low)) := by
  rw [next_portRead, ← levelOf_bitGet]
  rfl

/-- PORT_READ of a port with a valid handle: one read of IN and the level of its bit (R207). -/
theorem callOp_portRead {s : State} {a : SlaveAddr} (n : Port) (hslave : s.slave = some a) :
    callOp (.portRead n.val) s =
      (match busRead .controller a .input s with
      | (u, .data d) => u.complete (.ok (.level (if d.getLsbD n.val then .high else .low)))
      | (u, _) => u.complete (.err .transportFailure)) :=
  callOp_read (value := fun d => .level (if d.getLsbD n.val then .high else .low))
    (next_portRead n 0 none) (next_portRead_one n) hslave

/-- Settles O26: the port and the handle are checked, and the call is an operation of one read. -/
theorem portReadRule : Obligations.PortReadRule := by
  refine fun s p => ⟨fun hbad => ?_, ?_⟩
  · exact exec_rejected rfl (hbad.imp_right portOk_outside)
  · rintro h n hhandle hvalid rfl
    exact congrArg Host.Outcome.next (callOp_portRead n (slave_valid hhandle hvalid))

/-- Settles O30: the byte is the one that the coming read of IN returns, whoever issues it. -/
theorem portReadCompletes : Obligations.PortReadCompletes := by
  intro s n hready hok
  refine ⟨_, exec_read_ok (r := .input) hok rfl, ?_⟩
  rw [exec_of_opOf rfl, callOp_portRead n (ready_slave hready), busRead_ok rfl hok]
  rfl

/-- A port operand that passes its check names a port (R204). -/
theorem exists_port_of_portOk {p : Int} (h : portOk p = true) : ∃ n : Port, p = n.val := by
  simp only [portOk, Bool.and_eq_true, decide_eq_true_eq] at h
  exact ⟨⟨p.toNat, by omega⟩, by simp only; omega⟩

/-- Everything PORT_READ can do: it ends at once, or after one read of IN (R207). -/
theorem callOp_portRead_cases (p : Int) (s : State) :
    (∃ r, callOp (.portRead p) s = s.complete r) ∨
    ∃ a r, callOp (.portRead p) s = (transact .controller a (.read .input) s).1.complete r := by
  cases hp : portOk p with
  | false => exact .inl ⟨_, callOp_reject (next_zero_of_illFormed (i := .portRead p) rfl hp none) s⟩
  | true =>
    obtain ⟨n, rfl⟩ := exists_port_of_portOk hp
    cases hslave : s.slave with
    | none => exact .inl ⟨_, callOp_invalid _ hslave⟩
    | some a =>
      refine .inr ⟨a, ?_⟩
      simp only [callOp_portRead n hslave, transact_read]
      rcases busRead .controller a .input s with ⟨u, d | _ | _⟩ <;> exact ⟨_, rfl⟩

/-- Settles O40: neither an immediate end nor a read of IN changes a register. -/
theorem portReadNeverWrites : Obligations.PortReadNeverWrites := by
  intro s t p hexec
  obtain rfl : callOp (.portRead p) s = t := by
    simpa [exec_of_opOf (i := .portRead p) rfl] using hexec
  obtain ⟨r, hcall⟩ | ⟨a, r, hcall⟩ := callOp_portRead_cases p s
  · rw [hcall]
    exact ⟨fun _ => rfl, [], by simp, by simp, by simp⟩
  · obtain ⟨landed, hbus⟩ := transact_bus .controller a (.read .input) s
    rw [hcall]
    refine ⟨fun c => transact_reg_other _ a _ s c nofun, _, hbus, Nat.le_refl 1, ?_⟩
    intro e he
    rw [List.mem_singleton.1 he]
    rfl

/-! ### PORT_WRITE, PORT_POLARITY, PORT_DIRECTION -/

/-- Settles O27: the operands and the handle are checked, and the call is a read-modify-write. -/
theorem readModifyWriteRule : Obligations.ReadModifyWriteRule := by
  refine fun s p => ⟨fun x hbad => ?_, ?_⟩
  · have hbad' : validate s.board.busOpen s.handle = false ∨ (portOk p && valueOk x) = false := by
      obtain hinvalid | hneg | hlarge | ⟨h0, h1⟩ := hbad
      · exact .inl hinvalid
      · exact .inr (by rw [portOk_outside (.inl hneg), Bool.false_and])
      · exact .inr (by rw [portOk_outside (.inr hlarge), Bool.false_and])
      · exact .inr (by rw [valueOk_other h0 h1, Bool.and_false])
    simp only [List.forall_mem_cons, List.not_mem_nil, false_implies, implies_true, and_true]
    exact ⟨exec_rejected rfl hbad', exec_rejected rfl hbad', exec_rejected rfl hbad'⟩
  · rintro h n hhandle hvalid rfl
    have hslave := slave_valid hhandle hvalid
    refine ⟨fun l => ?_, fun q => ?_, fun d => ?_⟩
    · exact congrArg Host.Outcome.next (callOp_rmw (next_portWrite n l) hslave)
    · exact congrArg Host.Outcome.next (callOp_rmw (next_portPolarity n q) hslave)
    · exact congrArg Host.Outcome.next (callOp_rmw (next_portDirection n d) hslave)

/-- A read-modify-write with no other agent and no failure (R206, R211): the whole next state. -/
theorem callOp_rmw_ok {op : Op} {c : Csr} {n : Port} {x : Bool} {s : State}
    (hop : ∀ step rd, op.next step rd = nextRmw c n x step rd) (hready : s.Ready)
    (hexcl : s.board.exclusive = true) (hread : s.Succeeds 0) (hwrite : s.Succeeds 1) :
    callOp op s =
      { s with
        ctrl := .idle
        env := s.env.afterDraw.afterDraw
        target := (s.target.write c (withBitSet (s.target.reg c) n x)).point
          (indexOf s.board.regIndex (.csr c))
        bus := s.bus ++
          [s.controllerTx (.read (.csr c)) (.data (s.target.reg c)) false,
           s.controllerTx (.write c (withBitSet (s.target.reg c) n x)) .done true]
        returned := some (.operation (.ok .unit)) } := by
  rw [callOp_rmw hop (ready_slave hready), rmwOutcome, busRead_ok rfl hread]
  dsimp only
  rw [environmentTurn_exclusive (by exact hexcl),
    busWrite_ok (by rfl) (by simpa [State.Succeeds] using hwrite), ← point_write, List.append_cons]
  rfl

/-- Settles O31: each of the three is a read-modify-write of its own register. -/
theorem portOperationsComplete : Obligations.PortOperationsComplete := by
  refine fun s n hready hexcl hread hwrite => ⟨fun l => ?_, fun q => ?_, fun d => ?_⟩
  · exact congrArg Host.Outcome.next (callOp_rmw_ok (next_portWrite n l) hready hexcl hread hwrite)
  · exact congrArg Host.Outcome.next (callOp_rmw_ok (next_portPolarity n q) hready hexcl hread hwrite)
  · exact congrArg Host.Outcome.next (callOp_rmw_ok (next_portDirection n d) hready hexcl hread hwrite)

/-- Settles O35: the register of the next state is `with_bit_set` of the old one. -/
theorem portOperationsTouchOneBit : Obligations.PortOperationsTouchOneBit := by
  intro s n hready hexcl hread hwrite
  obtain ⟨hwriteOut, hwritePol, hwriteCfg⟩ := portOperationsComplete s n hready hexcl hread hwrite
  refine ⟨fun l => ⟨_, hwriteOut l, fun k => ?_⟩, fun q => ⟨_, hwritePol q, fun k => ?_⟩,
    fun d => ⟨_, hwriteCfg d, fun k => ?_⟩⟩
  · exact getLsbD_withBitSet _ n k _
  · exact getLsbD_withBitSet _ n k _
  · exact getLsbD_withBitSet _ n k _

end Sys2Proof.Machine
end

section
/-! RESET: its pseudocode (O28), its whole next state when the three writes succeed (O32), what each of its
failures leaves (O33), and the order of its writes on every path (O41). -/

namespace Sys2Proof.Machine

/-! ### The pseudocode -/

/-- Settles O28: the handle is checked before the first write; past the check the call is R240's. -/
theorem resetRule : Obligations.ResetRule := fun _ =>
  ⟨fun hinvalid => exec_rejected rfl (.inl hinvalid), fun _ hhandle hvalid =>
    congrArg Host.Outcome.next (callOp_reset (slave_valid hhandle hvalid))⟩

theorem exec_reset_ready {s : State} (h : s.Ready) :
    exec .reset s = .next (resetOutcome s.board.targetAddr s) :=
  congrArg Host.Outcome.next (callOp_reset (ready_slave h))

/-! ### One write of the controller at the target -/

/-- The state after the controller's write of `v` to `c` has succeeded at the target (R141). -/
def State.wrote (c : Csr) (v : Byte) (s : State) : State :=
  { s with
    env := s.env.afterDraw
    target := (s.target.write c v).point (indexOf s.board.regIndex (.csr c))
    bus := s.bus ++ [s.controllerTx (.write c v) .done true] }

/-- The state after the controller's write of `v` to `c` has failed at the target (R142). -/
def State.writeFailed (c : Csr) (v : Byte) (s : State) : State :=
  (busWrite .controller s.board.targetAddr c v s).1

theorem busWrite_wrote {a : SlaveAddr} {s : State} (ha : a = s.board.targetAddr) (h : s.Succeeds 0)
    (c : Csr) (v : Byte) : busWrite .controller a c v s = (s.wrote c v, .done) := by
  subst ha
  rw [busWrite_ok rfl h, point_write]
  rfl

theorem busWrite_writeFailed {a : SlaveAddr} {s : State} (ha : a = s.board.targetAddr) (h : s.Fails 0)
    (c : Csr) (v : Byte) : busWrite .controller a c v s = (s.writeFailed c v, .fail) := by
  subst ha
  rw [State.writeFailed, busWrite_fails rfl h]

@[simp] theorem wrote_board (c : Csr) (v : Byte) (s : State) : (s.wrote c v).board = s.board := by
  rw [State.wrote]

@[simp] theorem wrote_drawAt (c : Csr) (v : Byte) (s : State) (k : Nat) :
    (s.wrote c v).env.drawAt k = s.env.drawAt (k + 1) :=
  drawAt_afterDraw s.env k

@[simp] theorem wrote_succeeds (c : Csr) (v : Byte) (s : State) (k : Nat) :
    (s.wrote c v).Succeeds k ↔ s.Succeeds (k + 1) := by
  simp [State.Succeeds]

@[simp] theorem wrote_fails (c : Csr) (v : Byte) (s : State) (k : Nat) :
    (s.wrote c v).Fails k ↔ s.Fails (k + 1) := by
  simp [State.Fails]

/-- A failed write leaves its byte in its register, or the old one (R142). -/
theorem writeFailed_reg_same {s : State} (h : s.Fails 0) (c : Csr) (v : Byte) :
    (s.writeFailed c v).target.reg c =
      if (s.env.drawAt 0).applied then v else s.target.reg c := by
  rw [State.writeFailed, busWrite_fails rfl h]
  cases (s.env.drawAt 0).applied <;> simp

theorem writeFailed_reg_other (c c' : Csr) (h : c' ≠ c) (v : Byte) (s : State) :
    (s.writeFailed c v).target.reg c' = s.target.reg c' :=
  transact_reg_other .controller _ (.write c v) s c' fun _ e => h (by cases e; rfl)

/-! ### RESET with no other agent: each way it can end -/

theorem environmentTurn_wrote {s : State} (hexcl : s.board.exclusive = true) (c : Csr) (v : Byte) :
    environmentTurn (s.wrote c v) = s.wrote c v :=
  environmentTurn_exclusive hexcl

theorem resetOutcome_fails_first {s : State} (h0 : s.Fails 0) :
    resetOutcome s.board.targetAddr s =
      (s.writeFailed .output 0xFF#8).complete (.err .transportFailure) := by
  rw [resetOutcome, busWrite_writeFailed rfl h0]

section
variable {s : State} (hexcl : s.board.exclusive = true) (h0 : s.Succeeds 0)
include hexcl h0

theorem resetOutcome_fails_second (h1 : s.Fails 1) :
    resetOutcome s.board.targetAddr s =
      ((s.wrote .output 0xFF#8).writeFailed .polarity 0x00#8).complete (.err .transportFailure) := by
  simp [resetOutcome, busWrite_wrote, busWrite_writeFailed, environmentTurn_wrote, hexcl, h0, h1]

theorem resetOutcome_fails_third (h1 : s.Succeeds 1) (h2 : s.Fails 2) :
    resetOutcome s.board.targetAddr s =
      (((s.wrote .output 0xFF#8).wrote .polarity 0x00#8).writeFailed .configuration 0xFF#8).complete
        (.err .transportFailure) := by
  simp [resetOutcome, busWrite_wrote, busWrite_writeFailed, environmentTurn_wrote, hexcl, h0, h1, h2]

theorem resetOutcome_succeeds (h1 : s.Succeeds 1) (h2 : s.Succeeds 2) :
    resetOutcome s.board.targetAddr s =
      (((s.wrote .output 0xFF#8).wrote .polarity 0x00#8).wrote .configuration 0xFF#8).complete
        (.ok .unit) := by
  simp [resetOutcome, busWrite_wrote, environmentTurn_wrote, hexcl, h0, h1, h2]

end

/-- Settles O32: the three writes put their defaults in the registers and their entries in the log. -/
theorem resetCompletes : Obligations.ResetCompletes := by
  refine fun s hready hexcl h0 h1 h2 => ⟨fun hindex => by rw [hindex]; rfl, ?_⟩
  rw [exec_reset_ready hready, resetOutcome_succeeds hexcl h0 h1 h2, List.append_cons,
    List.append_cons]
  rfl

/-- Settles O33: the writes before the one that fails have set their registers, and it leaves every
register but its own. -/
theorem partialReset : Obligations.PartialReset := by
  refine fun s hready hexcl => ⟨fun h0 => ?_, fun h0 h1 => ?_, fun h0 h1 h2 => ?_⟩
  · rw [exec_reset_ready hready, resetOutcome_fails_first h0]
    exact ⟨_, rfl, rfl, writeFailed_reg_same h0 .output _,
      writeFailed_reg_other .output .polarity nofun _ s,
      writeFailed_reg_other .output .configuration nofun _ s⟩
  · rw [exec_reset_ready hready, resetOutcome_fails_second hexcl h0 h1]
    rw [← wrote_fails .output 0xFF#8] at h1
    rw [← wrote_drawAt .output 0xFF#8]
    exact ⟨_, rfl, rfl, writeFailed_reg_other .polarity .output nofun _ _,
      writeFailed_reg_same h1 .polarity _,
      writeFailed_reg_other .polarity .configuration nofun _ _⟩
  · rw [exec_reset_ready hready, resetOutcome_fails_third hexcl h0 h1 h2]
    rw [← wrote_fails .output 0xFF#8, ← wrote_fails .polarity 0x00#8] at h2
    rw [← wrote_drawAt .output 0xFF#8, ← wrote_drawAt .polarity 0x00#8]
    exact ⟨_, rfl, rfl, writeFailed_reg_other .configuration .output nofun _ _,
      writeFailed_reg_other .configuration .polarity nofun _ _,
      writeFailed_reg_same h2 .configuration _⟩

/-! ### The order of RESET's writes -/

/-- The writes of RESET, in order (R240, R241). -/
def resetWrites : List Access :=
  [.write .output 0xFF#8, .write .polarity 0x00#8, .write .configuration 0xFF#8]

/-- What RESET issues after `k` transactions comes next in the row of its writes. -/
theorem drop_resetWrites {k : Nat} {acc : Access} (h : nextReset k = .emit acc) :
    resetWrites.drop k = acc :: resetWrites.drop (k + 1) := by
  unfold nextReset at h
  split at h <;> cases h <;> rfl

/-- From `s` to `t` the log has grown by entries of which the controller's are accesses that begin
`row`. -/
def BeginsRow (row : List Access) (s t : State) : Prop :=
  ∃ evs, t.bus = s.bus ++ evs ∧ (evs.filter Event.byController).filterMap Event.access? <+: row

theorem BeginsRow.of_bus_eq {s t : State} (h : t.bus = s.bus) (row : List Access) :
    BeginsRow row s t :=
  ⟨[], by simp [h]⟩

/-- A transaction of the controller after the other agents' turn, then the rest of the row. -/
theorem BeginsRow.cons {row : List Access} {k : Nat} {a : SlaveAddr} {acc : Access} {s u : State}
    (h : BeginsRow row (transact .controller a acc (turnBefore k s)).1 u) :
    BeginsRow (acc :: row) s u := by
  obtain ⟨evs, hturn, hnone⟩ := turnBefore_issued k s
  obtain ⟨landed, htx⟩ := transact_bus .controller a acc (turnBefore k s)
  obtain ⟨evs', hbus, hrow⟩ := h
  refine ⟨evs ++ (_ :: evs'), by rw [hbus, htx, hturn, List.append_assoc, List.append_assoc]; rfl, ?_⟩
  rw [List.countP_eq_length_filter, List.length_eq_zero_iff] at hnone
  simpa [List.filter_append, hnone, Event.byController, Event.access?] using hrow

/-- After `k` transactions RESET's run goes through the rest of the row (R241). -/
theorem runOp_reset_beginsRow (n k : Nat) (rd : Option Byte) (s : State) :
    BeginsRow (resetWrites.drop k) s (runOp n .reset k rd s) := by
  induction n generalizing k rd s with
  | zero => exact .of_bus_eq rfl _
  | succ n ih =>
    cases h : Op.reset.next k rd with
    | stuck => exact .of_bus_eq (by simp [runOp, h]) _
    | reject => rw [runOp_reject s h]; exact .of_bus_eq rfl _
    | finish v => rw [runOp_finish s h]; exact .of_bus_eq rfl _
    | emit acc =>
      cases hslave : s.slave with
      | none => rw [runOp_invalid h hslave]; exact .of_bus_eq rfl _
      | some a =>
        rw [drop_resetWrites h]
        refine .cons (k := k) (a := a) ?_
        rcases e : transact .controller a acc (turnBefore k s) with ⟨t, ans⟩
        cases ans with
        | fail => rw [runOp_fail h hslave e]; exact .of_bus_eq rfl _
        | data d => rw [runOp_data h hslave e]; exact ih _ _ _
        | done => rw [runOp_done h hslave e]; exact ih _ _ _

/-- Settles O41: the call is RESET's run from the start of the row. -/
theorem resetWritesInOrder : Obligations.ResetWritesInOrder := by
  intro s t hexec
  cases hexec
  exact runOp_reset_beginsRow opMoves 0 none { s with ctrl := .busy .reset 0 none }

end Sys2Proof.Machine
end

section
/-! The two errors of an operation: InvalidArgument exactly when a check fails (O13), and
TransportFailure exactly when the last transaction does (O38). -/

namespace Sys2Proof.Machine

/-! ### Checks that pass -/

theorem exists_reg_of_regCodeOk {r : Nat} (h : regCodeOk r = true) : ∃ q, r = regCode q := by
  obtain rfl | rfl | rfl | rfl : r = 0 ∨ r = 1 ∨ r = 2 ∨ r = 3 := by simp [regCodeOk] at h; omega
  · exact ⟨.input, rfl⟩
  · exact ⟨.csr .output, rfl⟩
  · exact ⟨.csr .polarity, rfl⟩
  · exact ⟨.csr .configuration, rfl⟩

theorem exists_csr_of_csrCodeOk {r : Nat} (h : csrCodeOk r = true) : ∃ c, r = csrCode c := by
  simp only [csrCodeOk, Bool.and_eq_true, decide_eq_true_eq] at h
  obtain ⟨_ | c, rfl⟩ := exists_reg_of_regCodeOk (r := r) (by simpa [regCodeOk] using h.2)
  · exact absurd h.1 (by decide)
  · exact ⟨c, rfl⟩

theorem valueOk_iff (x : Int) : valueOk x = true ↔ x = 0 ∨ x = 1 := by
  simp [valueOk]

/-- A port operation whose port and value pass their checks starts with its read (R206). -/
theorem nextPort_zero_ne_reject {p x : Int} {bit : Option Bool} (c : Csr) (rd : Option Byte)
    (h : (portOk p && valueOk x) = true) (hbit : x = 0 ∨ x = 1 → ∃ b, bit = some b) :
    nextPort c (portAndBit p bit) 0 rd ≠ .reject := by
  obtain ⟨hp, hx⟩ := Bool.and_eq_true_iff.1 h
  obtain ⟨n, rfl⟩ := exists_port_of_portOk hp
  obtain ⟨b, rfl⟩ := hbit ((valueOk_iff x).1 hx)
  rw [portAndBit_some]
  exact nofun

/-- An operation whose row admits its operands does not reject them (R173, R301). -/
theorem next_zero_of_wellFormed {i : Instr} {op : Op} (hop : opOf i = some op)
    (hwf : i.wellFormed = true) (rd : Option Byte) : op.next 0 rd ≠ .reject := by
  cases i with
  | rdIn _ | rdOut _ | rdPol _ | rdCfg _ | wrOut _ _ | wrPol _ _ | wrCfg _ _ | wrIn _ _ => cases hop
  | getRegister r =>
    cases hop
    obtain ⟨q, rfl⟩ := exists_reg_of_regCodeOk hwf
    rw [next_getRegister]
    exact nofun
  | setRegister r v =>
    cases hop
    obtain ⟨c, rfl⟩ := exists_csr_of_csrCodeOk hwf
    rw [next_setRegister]
    exact nofun
  | resetRegister r =>
    cases hop
    obtain ⟨c, rfl⟩ := exists_csr_of_csrCodeOk hwf
    rw [next_resetRegister]
    exact nofun
  | portRead p =>
    cases hop
    obtain ⟨n, rfl⟩ := exists_port_of_portOk hwf
    rw [next_portRead]
    exact nofun
  | portWrite _ _ | portPolarity _ _ | portDirection _ _ =>
    cases hop
    refine nextPort_zero_ne_reject _ rd hwf ?_
    rintro (rfl | rfl) <;> exact ⟨_, rfl⟩
  | reset => cases hop; exact nofun

theorem next_zero_ne_stuck (op : Op) (rd : Option Byte) : op.next 0 rd ≠ .stuck := by
  obtain h | ⟨acc, h⟩ := next_zero op rd <;> rw [h] <;> exact nofun

theorem exists_slave_of_validate {s : State} (h : validate s.board.busOpen s.handle = true) :
    ∃ a, s.slave = some a := by
  obtain ⟨bus, addr, hhandle, -⟩ := (validate_eq_true_iff _ _).1 h
  exact ⟨addr, slave_valid hhandle (hhandle ▸ h)⟩

/-! ### InvalidArgument -/

/-- A call that passes its checks does not return InvalidArgument, because its run counts through its
row (R301). -/
theorem callOp_ne_invalidArgument {i : Instr} {op : Op} {s : State} (hop : opOf i = some op)
    (hvalid : validate s.board.busOpen s.handle = true) (hwf : i.wellFormed = true) :
    (callOp op s).returned ≠ some (.operation (.err .invalidArgument)) := by
  obtain ⟨a, hslave⟩ := exists_slave_of_validate hvalid
  obtain ⟨_, -, -, -, hne⟩ :=
    runOp_countsTo hop (n := opMoves) { s with ctrl := .busy op 0 none } (next_zero_ne_stuck op none)
      (next_zero_of_wellFormed hop hwf none) hslave (by omega)
  exact hne

/-- Settles O13: a failed check raises InvalidArgument at once, and past the checks nothing does. -/
theorem invalidArgumentExactly : Obligations.InvalidArgumentExactly := by
  intro i s t hi hexec
  refine ⟨fun hret => ?_, fun hbad => ?_⟩
  · obtain ⟨op, hop, hcall⟩ := exec_composite hi
    cases (hcall s).symm.trans hexec
    by_contra hgood
    simp only [not_or, Bool.not_eq_false] at hgood
    exact callOp_ne_invalidArgument hop hgood.1 hgood.2 hret
  · cases (exec_rejected hi hbad).symm.trans hexec
    rfl

/-! ### Log entries that did not fail -/

/-- From `s` to `t` the log has grown by entries of which none is a failed one of the controller. -/
def Unfailing (s t : State) : Prop :=
  ∃ evs, t.bus = s.bus ++ evs ∧ ∀ e ∈ evs, e.byController = true → e.failed ≠ true

theorem Unfailing.refl (s : State) : Unfailing s s := ⟨[], by simp⟩

theorem Unfailing.trans {s t u : State} (hst : Unfailing s t) (htu : Unfailing t u) :
    Unfailing s u := by
  obtain ⟨evs, ht, hevs⟩ := hst
  obtain ⟨evs', hu, hevs'⟩ := htu
  exact ⟨evs ++ evs', by rw [hu, ht, List.append_assoc],
    fun e he => (List.mem_append.1 he).elim (hevs e) (hevs' e)⟩

/-- Where the controller issued nothing, nothing of it failed. -/
theorem Issued.unfailing {s t : State} (h : Issued 0 s t) : Unfailing s t := by
  obtain ⟨evs, hbus, hnone⟩ := h
  exact ⟨evs, hbus, fun e he hctrl => absurd hctrl (List.countP_eq_zero.1 hnone e he)⟩

theorem turnBefore_unfailing (k : Nat) (s : State) : Unfailing s (turnBefore k s) :=
  (turnBefore_issued k s).unfailing

/-- A transaction that succeeds after the other agents' turn. -/
theorem transact_turnBefore_unfailing {k : Nat} {a : SlaveAddr} {acc : Access} {s : State}
    (h : (transact .controller a acc (turnBefore k s)).2 ≠ .fail) :
    Unfailing s (transact .controller a acc (turnBefore k s)).1 := by
  obtain ⟨landed, hbus⟩ := transact_bus .controller a acc (turnBefore k s)
  exact (turnBefore_unfailing k s).trans ⟨_, hbus, by simp [Event.failed, h]⟩

/-! ### TransportFailure -/

/-- A run from `s` that ended at `t`: none of the controller's transactions failed and it did not return
TransportFailure, or only the last entry of the log is such a one and it did (R306). -/
inductive EndsAtFailure (s t : State) : Prop where
  | unfailing (hlog : Unfailing s t)
      (hret : t.returned ≠ some (.operation (.err .transportFailure)))
  | failed {u : State} {e : Event} (hlog : Unfailing s u) (hbus : t.bus = u.bus ++ [e])
      (hctrl : e.byController = true) (hfail : e.failed = true)
      (hret : t.returned = some (.operation (.err .transportFailure)))

/-- Entries that did not fail, then the rest of the run, whatever the controller state (R43). -/
theorem EndsAtFailure.of_unfailing {s t u : State} {ctrl : Ctrl} (hst : Unfailing s t)
    (h : EndsAtFailure { t with ctrl := ctrl } u) : EndsAtFailure s u := by
  cases h with
  | unfailing hlog hret => exact .unfailing (hst.trans hlog) hret
  | failed hlog hbus hctrl hfail hret => exact .failed (hst.trans hlog) hbus hctrl hfail hret

/-- A transaction that fails ends the run with TransportFailure (R302, R306). -/
theorem endsAtFailure_of_fail {a : SlaveAddr} {acc : Access} {s u : State} (hlog : Unfailing s u)
    (hfail : (transact .controller a acc u).2 = .fail) :
    EndsAtFailure s (raise .transportFailure (transact .controller a acc u).1) := by
  obtain ⟨landed, hbus⟩ := transact_bus .controller a acc u
  exact .failed hlog hbus rfl (by simp [Event.failed, hfail]) rfl

/-- A run that is not stuck and has its remaining moves left to it ends at its first failure. -/
theorem runOp_endsAtFailure {n : Nat} {op : Op} {k : Nat} {rd : Option Byte} (s : State)
    (hnext : op.next k rd ≠ .stuck) (hmoves : opMoves ≤ k + n) :
    EndsAtFailure s (runOp n op k rd s) := by
  induction n generalizing k rd s with
  | zero => exact absurd (next_step_lt hnext) (by omega)
  | succ n ih =>
    cases h : op.next k rd with
    | stuck => exact absurd h hnext
    | reject => rw [runOp_reject s h]; exact .unfailing (.refl s) (by simp)
    | finish v => rw [runOp_finish s h]; exact .unfailing (.refl s) (by simp)
    | emit acc =>
      cases hslave : s.slave with
      | none => rw [runOp_invalid h hslave]; exact .unfailing (.refl s) (by simp)
      | some a =>
        obtain ht | ⟨r, d, rfl, ht⟩ | ⟨c, v, rfl, ht⟩ :=
          transact_answer .controller a acc (turnBefore k s)
        · rw [runOp_fail h hslave (Prod.ext rfl ht)]
          exact endsAtFailure_of_fail (turnBefore_unfailing k s) ht
        · rw [runOp_data h hslave (Prod.ext rfl ht)]
          exact .of_unfailing (transact_turnBefore_unfailing (ht.trans_ne nofun))
            (ih _ (next_after_read h d) (by omega))
        · rw [runOp_done h hslave (Prod.ext rfl ht)]
          exact .of_unfailing (transact_turnBefore_unfailing (ht.trans_ne nofun))
            (ih _ (next_after_write h) (by omega))

theorem callOp_endsAtFailure (op : Op) (s : State) : EndsAtFailure s (callOp op s) :=
  .of_unfailing (.refl s) (runOp_endsAtFailure _ (next_zero_ne_stuck op none) (by omega))

/-- An entry that is not before the last one is the last one. -/
theorem eq_nil_of_append_cons_eq {evs before after : List Event} {last e : Event} (he : e ∉ evs)
    (h : evs ++ [last] = before ++ e :: after) : after = [] := by
  obtain rfl | ⟨front, x, rfl⟩ := List.eq_nil_or_concat after
  · rfl
  · rw [List.concat_eq_append, ← List.cons_append, ← List.append_assoc] at h
    obtain ⟨rfl, -⟩ := List.append_inj' h rfl
    exact absurd (by simp) he

/-- Settles O38: the call's run ends at its first failure, and returns TransportFailure only there. -/
theorem firstFailureEndsOperation : Obligations.FirstFailureEndsOperation := by
  intro i s t hi hexec
  obtain ⟨op, -, hcall⟩ := exec_composite hi
  cases (hcall s).symm.trans hexec
  cases callOp_endsAtFailure op s with
  | unfailing hlog hret =>
    obtain ⟨evs, hbus, hevs⟩ := hlog
    refine ⟨evs, hbus, ?_, fun h => absurd h hret⟩
    rintro before e after rfl hctrl hfail
    exact absurd hfail (hevs e (by simp) hctrl)
  | @failed u last hlog hbus hctrl hfail hret =>
    obtain ⟨evs, hu, hevs⟩ := hlog
    refine ⟨evs ++ [last], by rw [hbus, hu, List.append_assoc], fun before e after heq hc hf => ?_,
      fun _ => ⟨evs, last, rfl, hctrl, hfail⟩⟩
    exact ⟨eq_nil_of_append_cons_eq (fun he => hevs e he hc hf) heq, hret⟩

end Sys2Proof.Machine
end

section
/-! Hazards (O36, O47): the update of another agent that a read-modify-write loses, and the step that finds
nothing to do. -/

namespace Sys2Proof.Machine

/-! ### The lost update -/

/-- A read-modify-write that returns Ok leaves in its register the byte computed from the one it read
first, whatever the turn in between did to the register (R213, R405): the read's byte is the register's,
and the write is the last transaction. -/
theorem rmwOutcome_reg_of_ok {a : SlaveAddr} {c : Csr} {n : Port} {x : Bool} {s : State}
    (hok : (rmwOutcome a c n x s).returned = some (.operation (.ok .unit))) :
    (rmwOutcome a c n x s).target.reg c = withBitSet (s.target.reg c) n x := by
  unfold rmwOutcome at hok ⊢
  split at hok
  next u b hread =>
    split at hok
    next w hwrite =>
      rw [complete_target, busWrite_done_reg hwrite, busRead_data_reg hread]
    next => simp at hok
  next => simp at hok

/-- The same of the call of a port operation: with an invalid handle it does not return Ok. -/
theorem callOp_rmw_reg_of_ok {op : Op} {c : Csr} {n : Port} {x : Bool} {s : State}
    (hop : ∀ step rd, op.next step rd = nextRmw c n x step rd)
    (hok : (callOp op s).returned = some (.operation (.ok .unit))) :
    (callOp op s).target.reg c = withBitSet (s.target.reg c) n x := by
  cases hslave : s.slave with
  | none => simp [callOp_invalid op hslave] at hok
  | some a =>
    rw [callOp_rmw hop hslave] at hok ⊢
    exact rmwOutcome_reg_of_ok hok

/-- Settles O36: each port operation is the call of a read-modify-write of its own register. -/
theorem lostUpdate : Obligations.LostUpdate := by
  refine fun s t n hok => ⟨fun l hexec => ?_, fun q hexec => ?_, fun d hexec => ?_⟩ <;> cases hexec
  · exact callOp_rmw_reg_of_ok (next_portWrite n l) hok
  · exact callOp_rmw_reg_of_ok (next_portPolarity n q) hok
  · exact callOp_rmw_reg_of_ok (next_portDirection n d) hok

/-! ### The idle step -/

/-- With nothing in the inbox a step is the turn of the other agents (R401). -/
theorem step_nothing {s : State} (hctrl : s.ctrl = .idle) (hinbox : s.inbox = []) :
    step s = .next (environmentTurn s) := by
  simp [step, fetch, hctrl, hinbox, settle]

/-- Settles O47: with EXCLUSIVE the other agents' turn changes nothing. -/
theorem idleStep : Obligations.IdleStep := fun s hctrl hinbox =>
  ⟨step_nothing hctrl hinbox, fun hexcl => by
    rw [step_nothing hctrl hinbox, environmentTurn_exclusive hexcl]⟩

end Sys2Proof.Machine
end
